-- ==== Sys2Proof/Word.lean ====
section
/-! DEFINITION. The words the spec treats as bits (00_scope.md R6, R7). Bit 0 is the least significant bit. -/

namespace Sys2Proof

/-- A command code: the 32-bit word of 30_encoding.md R60 (`CODE_W` of R6). -/
abbrev Code := BitVec 32

/-- The value on the `op` port: the one 4-bit format `OP4` of 30_encoding.md R70. -/
abbrev OpSelect := BitVec 4

/-- The value on `err_ovf`: bit i is field i (60_exceptions.md R202). -/
abbrev OverflowMask := BitVec 4

end Sys2Proof
end

