-- ==== Sys2Proof/Config.lean ====
section
/-! DEFINITION. The implementation parameters of 00_scope.md R6. The field widths are not parameters: they stand with the
layout in Machine/Layout.lean. -/

namespace Sys2Proof.Config

/-- The parameter `IN_W`, the width of each encoder operand port, with R6's constraint `IN_W >= 15`. R6 calls it a model
argument: every state carries one, no step changes it, and every statement holds for all of them (log 2). -/
structure PortWidth where
  bits : Nat
  atLeast15 : 15 ≤ bits
  deriving DecidableEq, Repr

/-- R6: `IN_W` is 32 by default. -/
def defaultPortWidth : PortWidth := ⟨32, by decide⟩

/-- R6, 42_registry.md R184: `NATIVE_INT_BYTES` is pinned to 4. -/
def nativeIntBytes : Nat := 4

/-- R6: the settle time `T_PD`, open and read by no rule (70_reset_and_hazards.md R247). No definition of the model uses
it: DESIGN CHOICE, log 7. -/
opaque settleTime : Nat

end Sys2Proof.Config
end

