-- ==== Sys2Proof/Syntax.lean ====
section
/-! DEFINITION. The operations of the opcode table, the port values that encode one evaluation (95_test_vectors.md
section 3), and the syntax of an evaluation (30_encoding.md R77 to R79). -/

namespace Sys2Proof

/-- One constructor per row of spec/opcode_table.json (30_encoding.md R70). The select has no operand bits, so no
constructor has an argument: the operands are on the input ports. -/
inductive Instr where
  /-- `ENC`, op 0x0, 40_encoder.md R102. -/
  | enc
  /-- `ENCU`, op 0x1, R107. -/
  | encu
  /-- `ENC.N`, op 0x4, R103. -/
  | encN
  /-- `ENC.W`, op 0x5, R104. -/
  | encW
  /-- `ENC.R`, op 0x6, R105. -/
  | encR
  /-- `ENC.RW`, op 0x7, R106. -/
  | encRW
  /-- `DEC.NR`, op 0x8, 41_decoder.md R151. -/
  | decNr
  /-- `DEC.TYPE`, op 0x9, R152. -/
  | decType
  /-- `DEC.SIZE`, op 0xA, R153. -/
  | decSize
  /-- `DEC.DIR`, op 0xB, R154. -/
  | decDir
  /-- `ENCU.W`, op 0xD, R108. -/
  | encuW
  /-- `ENCU.R`, op 0xE, R109. -/
  | encuR
  /-- `ENCU.RW`, op 0xF, R110. -/
  | encuRW
  deriving DecidableEq, Repr

/-- The four directions of 30_encoding.md R68. -/
inductive Direction where
  /-- "transfers no payload" -/
  | none
  /-- "a payload into the driver" -/
  | write
  /-- "a payload out of the driver" -/
  | read
  /-- "both" -/
  | readWrite
  deriving DecidableEq, Repr

/-- The values on the six input ports (10_state.md R26), each bit 0 or 1 (R30), for operand ports of `w` bits. -/
structure InputPorts (w : Nat) where
  op : OpSelect
  inDir : BitVec w
  inType : BitVec w
  inNr : BitVec w
  inSize : BitVec w
  codeIn : Code
  deriving DecidableEq, Repr

/-- The software integers a host means to put on the input ports: the integers of 30_encoding.md R73 and 41_decoder.md
R158, before a port narrows them. -/
structure HostValues where
  op : OpSelect
  inDir : Int
  inType : Int
  inNr : Int
  inSize : Int
  codeIn : Int
  deriving DecidableEq, Repr

/-- One evaluation with its operands, in the operand order of 30_encoding.md R77. `α` is what an operand is: a literal of
the text (R78), or the integer it stands for. -/
inductive Evaluation (α : Type) where
  | enc (dir type nr size : α)
  | encu (dir type nr size : α)
  | encN (type nr : α)
  | encW (type nr size : α)
  | encR (type nr size : α)
  | encRW (type nr size : α)
  | decNr (code : α)
  | decType (code : α)
  | decSize (code : α)
  | decDir (code : α)
  | encuW (type nr size : α)
  | encuR (type nr size : α)
  | encuRW (type nr size : α)
  deriving DecidableEq, Repr

/-- An operand of the text: 30_encoding.md R78. -/
inductive AsmOperand where
  /-- a decimal literal -/
  | decimal (n : Nat)
  /-- a hexadecimal literal with prefix `0x` -/
  | hexadecimal (n : Nat)
  /-- a negative decimal literal, `-n` -/
  | negative (n : Nat)
  /-- a character literal -/
  | character (c : Char)
  /-- one of the names `NONE`, `WRITE`, `READ`, `RW`, for `dir` only -/
  | direction (d : Direction)
  deriving DecidableEq, Repr

/-- One line of the text: an evaluation, or the pseudo-instruction `DEC code` of 30_encoding.md R79. -/
inductive AsmLine where
  | evaluation (e : Evaluation AsmOperand)
  | decAll (code : AsmOperand)
  deriving DecidableEq, Repr

/-- The operation an evaluation selects. -/
def Evaluation.instr {α : Type} : Evaluation α → Instr
  | .enc .. => .enc
  | .encu .. => .encu
  | .encN .. => .encN
  | .encW .. => .encW
  | .encR .. => .encR
  | .encRW .. => .encRW
  | .decNr _ => .decNr
  | .decType _ => .decType
  | .decSize _ => .decSize
  | .decDir _ => .decDir
  | .encuW .. => .encuW
  | .encuR .. => .encuR
  | .encuRW .. => .encuRW

/-- Each operand replaced by `f` of it. -/
def Evaluation.map {α β : Type} (f : α → β) : Evaluation α → Evaluation β
  | .enc d t n z => .enc (f d) (f t) (f n) (f z)
  | .encu d t n z => .encu (f d) (f t) (f n) (f z)
  | .encN t n => .encN (f t) (f n)
  | .encW t n z => .encW (f t) (f n) (f z)
  | .encR t n z => .encR (f t) (f n) (f z)
  | .encRW t n z => .encRW (f t) (f n) (f z)
  | .decNr c => .decNr (f c)
  | .decType c => .decType (f c)
  | .decSize c => .decSize (f c)
  | .decDir c => .decDir (f c)
  | .encuW t n z => .encuW (f t) (f n) (f z)
  | .encuR t n z => .encuR (f t) (f n) (f z)
  | .encuRW t n z => .encuRW (f t) (f n) (f z)

/-- The `dir` operand, of the two operations that have one (R77). -/
def Evaluation.dirOperand {α : Type} : Evaluation α → Option α
  | .enc d _ _ _ | .encu d _ _ _ => some d
  | .encN .. | .encW .. | .encR .. | .encRW .. | .decNr _ | .decType _ | .decSize _ | .decDir _
  | .encuW .. | .encuR .. | .encuRW .. => Option.none

/-- The operands that go to `in_type`, `in_nr` and `in_size` (R77). -/
def Evaluation.plainOperands {α : Type} : Evaluation α → List α
  | .enc _ t n z | .encu _ t n z => [t, n, z]
  | .encN t n => [t, n]
  | .encW t n z | .encR t n z | .encRW t n z | .encuW t n z | .encuR t n z | .encuRW t n z => [t, n, z]
  | .decNr _ | .decType _ | .decSize _ | .decDir _ => []

/-- The operand that goes to `code_in` (R77). -/
def Evaluation.codeOperand {α : Type} : Evaluation α → Option α
  | .decNr c | .decType c | .decSize c | .decDir c => some c
  | .enc .. | .encu .. | .encN .. | .encW .. | .encR .. | .encRW .. | .encuW .. | .encuR .. | .encuRW .. => Option.none

end Sys2Proof
end

