-- ==== Sys2Proof/WellFormed.lean ====
section
/-! DEFINITION. Which evaluations and text operands are well formed. An `Instr` has no field, so every one is well formed;
the checks are on the operands. -/

namespace Sys2Proof

/-- 70_reset_and_hazards.md R246 item 4: an operand port takes the integers −2^(IN_W−1) .. 2^(IN_W−1) − 1. -/
def fitsPort (w : Nat) (i : Int) : Bool := decide (-(2 ^ (w - 1)) ≤ i ∧ i < 2 ^ (w - 1))

/-- 10_state.md R26: `code_in` is 32 bits. A code is read as an unsigned value (00_scope.md R8). -/
def fitsCodePort (i : Int) : Bool := decide (0 ≤ i) && decide (i.toNat < 2 ^ 32)

/-- Every operand of the evaluation is one its port can hold, for operand ports of `w` bits. -/
def Evaluation.wellFormed (w : Nat) (e : Evaluation Int) : Bool :=
  e.dirOperand.all (fitsPort w) && e.plainOperands.all (fitsPort w) && e.codeOperand.all fitsCodePort

/-- 30_encoding.md R78: a character literal is an ASCII character, and a direction name stands for `dir` only. -/
def AsmOperand.wellFormed (forDir : Bool) : AsmOperand → Bool
  | .decimal _ | .hexadecimal _ | .negative _ => true
  | .character c => decide (c.toNat < 128)
  | .direction _ => forDir

/-- R78 over all the operands of an evaluation. -/
def Evaluation.asmWellFormed (e : Evaluation AsmOperand) : Bool :=
  e.dirOperand.all (AsmOperand.wellFormed true) && e.plainOperands.all (AsmOperand.wellFormed false)
    && e.codeOperand.all (AsmOperand.wellFormed false)

/-- R78 over a line of the text. -/
def AsmLine.wellFormed : AsmLine → Bool
  | .evaluation e => e.asmWellFormed
  | .decAll c => c.wellFormed false

end Sys2Proof
end

