-- ==== Sys2Proof/Decode.lean ====
section
/-! DEFINITION. Decoding and encoding of the operation select (30_encoding.md R70), of a whole evaluation as port values
(95_test_vectors.md section 3), and the narrowing of a host's integers to the ports (R73, 41_decoder.md R158). -/

namespace Sys2Proof

/-- Why a select names no operation: 30_encoding.md R75. -/
inductive DecodeError where
  /-- the `op` value is reserved: 0x2, 0x3 or 0xC -/
  | reservedSelect (op : OpSelect)
  deriving DecidableEq, Repr

/-- The operation an `op` value selects: the table of 30_encoding.md R70, row by row. -/
def decode (op : OpSelect) : Except DecodeError Instr :=
  match op with
  | 0x0#4 => .ok .enc
  | 0x1#4 => .ok .encu
  | 0x4#4 => .ok .encN
  | 0x5#4 => .ok .encW
  | 0x6#4 => .ok .encR
  | 0x7#4 => .ok .encRW
  | 0x8#4 => .ok .decNr
  | 0x9#4 => .ok .decType
  | 0xA#4 => .ok .decSize
  | 0xB#4 => .ok .decDir
  | 0xD#4 => .ok .encuW
  | 0xE#4 => .ok .encuR
  | 0xF#4 => .ok .encuRW
  | reserved => .error (.reservedSelect reserved)

/-- The `op` value of an operation: 30_encoding.md R70. -/
def encode : Instr → OpSelect
  | .enc => 0x0#4
  | .encu => 0x1#4
  | .encN => 0x4#4
  | .encW => 0x5#4
  | .encR => 0x6#4
  | .encRW => 0x7#4
  | .decNr => 0x8#4
  | .decType => 0x9#4
  | .decSize => 0xA#4
  | .decDir => 0xB#4
  | .encuW => 0xD#4
  | .encuR => 0xE#4
  | .encuRW => 0xF#4

/-- The select carried by a table word of `nbits` bits: the four low bits go to the four lines of `op`, and the table's
mask 0xF says no other bit is read (log 6). -/
def selectOfWord (nbits w : Nat) : OpSelect := BitVec.ofNat 4 (w % 2 ^ nbits)

/-- The operation the decoder reads from a word of the opcode table. -/
def decodeTableWord (nbits w : Nat) : Option Instr :=
  match decode (selectOfWord nbits w) with
  | .ok i => some i
  | .error _ => none

/-- 30_encoding.md R73: an integer reaches an operand port as its two's-complement pattern of `w` bits. -/
def operandOfInt (w : Nat) (i : Int) : BitVec w := BitVec.ofInt w i

/-- 41_decoder.md R158: an integer reaches `code_in` as its low 32 bits. -/
def codeOfInt (i : Int) : Code := BitVec.ofInt 32 i

/-- The port values a host's integers become. -/
def HostValues.onPorts (w : Nat) (h : HostValues) : InputPorts w :=
  { op := h.op, inDir := operandOfInt w h.inDir, inType := operandOfInt w h.inType, inNr := operandOfInt w h.inNr,
    inSize := operandOfInt w h.inSize, codeIn := codeOfInt h.codeIn }

/-- 30_encoding.md R77: operands bind to ports, and a port the operation does not read is written as 0. -/
def Evaluation.hostValues (e : Evaluation Int) : HostValues :=
  let base : HostValues := { op := encode e.instr, inDir := 0, inType := 0, inNr := 0, inSize := 0, codeIn := 0 }
  match e with
  | .enc d t n z | .encu d t n z => { base with inDir := d, inType := t, inNr := n, inSize := z }
  | .encN t n => { base with inType := t, inNr := n }
  | .encW t n z | .encR t n z | .encRW t n z | .encuW t n z | .encuR t n z | .encuRW t n z =>
    { base with inType := t, inNr := n, inSize := z }
  | .decNr c | .decType c | .decSize c | .decDir c => { base with codeIn := c }

/-- The values on the six ports that encode an evaluation (95_test_vectors.md section 3). -/
def encodeEvaluation (w : Nat) (e : Evaluation Int) : InputPorts w := e.hostValues.onPorts w

/-- The evaluation that port values ask for: the operation of `op`, and the operands of the ports it reads (10_state.md
R26), an operand port read as a two's-complement integer and `code_in` as an unsigned one. -/
def decodePorts {w : Nat} (p : InputPorts w) : Except DecodeError (Evaluation Int) :=
  let d := p.inDir.toInt
  let t := p.inType.toInt
  let n := p.inNr.toInt
  let z := p.inSize.toInt
  let c : Int := p.codeIn.toNat
  match decode p.op with
  | .error e => .error e
  | .ok .enc => .ok (.enc d t n z)
  | .ok .encu => .ok (.encu d t n z)
  | .ok .encN => .ok (.encN t n)
  | .ok .encW => .ok (.encW t n z)
  | .ok .encR => .ok (.encR t n z)
  | .ok .encRW => .ok (.encRW t n z)
  | .ok .decNr => .ok (.decNr c)
  | .ok .decType => .ok (.decType c)
  | .ok .decSize => .ok (.decSize c)
  | .ok .decDir => .ok (.decDir c)
  | .ok .encuW => .ok (.encuW t n z)
  | .ok .encuR => .ok (.encuR t n z)
  | .ok .encuRW => .ok (.encuRW t n z)

end Sys2Proof
end

