-- ==== Sys2Proof/Machine/State.lean ====
section
/-! DEFINITION. The machine's state. The block itself has none (10_state.md R20 to R25): a state is the values on the ports
during one evaluation (R26, R27) and the port width parameter. -/

namespace Sys2Proof.Machine

/-- The outcome of an evaluation: 00_scope.md R9. The two error outcomes carry no result. -/
inductive EvalOutcome where
  /-- `ok(r)`, with `r` driven on `result` -/
  | ok (r : Code)
  /-- `FieldOverflow(m)`: bit i of `m` is set for each overflowing field i -/
  | fieldOverflow (m : OverflowMask)
  /-- `IllegalOp`: the `op` value is reserved -/
  | illegalOp
  deriving DecidableEq, Repr

/-- The values on the output ports: 10_state.md R27. -/
structure OutputPorts where
  result : Code
  errOvf : OverflowMask
  errOp : BitVec 1
  decNr : BitVec 8
  decType : BitVec 8
  decSize : BitVec 14
  decDir : BitVec 2
  deriving DecidableEq, Repr

/-- The ports at one evaluation. `width` is the parameter `IN_W` (00_scope.md R6), which no step writes (log 2). `out` holds
what the last evaluation drove (log 1). -/
structure State where
  width : Config.PortWidth
  inp : InputPorts width.bits
  out : OutputPorts
  deriving DecidableEq, Repr

/-- Nothing stops this block: an error is an output value of an evaluation, after which the next one is independent
(60_exceptions.md R205, R208). So there is no fault, and this type has no constructor (log 5). -/
inductive Fault where
  deriving DecidableEq, Repr

/-- A refusal names an instruction the model gives no meaning. -/
inductive Refusal where
  /-- Raised by `exec` for an operation with no meaning yet, of which there is none. Safe: nothing is then said of it. -/
  | notModelled (mnemonic : String)
  deriving DecidableEq, Repr

/-- Other values on the input ports. -/
def State.withInputs (s : State) (p : InputPorts s.width.bits) : State := { s with inp := p }

/-- Other values on the output ports. -/
def State.withOutputs (s : State) (o : OutputPorts) : State := { s with out := o }

/-- The ports before a host has driven anything. The block has no reset (70_reset_and_hazards.md R240): every input bit is 0
(DESIGN CHOICE, log 3), and the outputs are the function R241 says they are of those inputs (log 4). -/
def State.reset : State :=
  { width := Config.defaultPortWidth
    inp := { op := 0, inDir := 0, inType := 0, inNr := 0, inSize := 0, codeIn := 0 }
    out := { result := 0, errOvf := 0, errOp := 0, decNr := 0, decType := 0, decSize := 0, decDir := 0 } }

end Sys2Proof.Machine
end

