-- ==== Sys2Proof/Machine/Layout.lean ====
section
/-! DEFINITION. The one authoritative bit layout of the command code (30_encoding.md R65), shared by the encoder and the
decoder (20_memory.md R49), and the direction values (R68). -/

namespace Sys2Proof.Machine

/-- The four fields, least significant first (00_scope.md R10). -/
inductive Field where
  | nr
  | type
  | size
  | dir
  deriving DecidableEq, Repr

/-- The field index of 00_scope.md R10: the bit of the overflow mask, and `op[1:0]` of a decode select. -/
def Field.index : Field → Nat
  | .nr => 0
  | .type => 1
  | .size => 2
  | .dir => 3

/-- The field's width: 30_encoding.md R65. -/
@[reducible] def Field.width : Field → Nat
  | .nr => 8
  | .type => 8
  | .size => 14
  | .dir => 2

/-- The field's bit offset: 30_encoding.md R65. -/
@[reducible] def Field.shift : Field → Nat
  | .nr => 0
  | .type => 8
  | .size => 16
  | .dir => 30

/-- `mask` = `(1 << width) - 1`: 30_encoding.md R65. -/
def Field.mask (f : Field) : Code := (1#32 <<< f.width) - 1#32

/-- "mask in place", `mask << shift`: 30_encoding.md R65. -/
def Field.maskInPlace (f : Field) : Code := f.mask <<< f.shift

/-- The DIR value of a direction: 30_encoding.md R68. -/
def directionBits : Direction → BitVec 2
  | .none => 0b00#2
  | .write => 0b01#2
  | .read => 0b10#2
  | .readWrite => 0b11#2

/-- The direction a DIR value names: 30_encoding.md R68. -/
def directionOfBits (d : BitVec 2) : Direction :=
  match d with
  | 0b00#2 => .none
  | 0b01#2 => .write
  | 0b10#2 => .read
  | _ => .readWrite

end Sys2Proof.Machine
end

