-- ==== Sys2Proof/Machine/Operands.lean ====
section
/-! DEFINITION. How an operand port relates to a field: 30_encoding.md R72. -/

namespace Sys2Proof.Machine

/-- `fits(f, v)`: the bits `v[IN_W-1:w]` above the field's width are all 0. -/
def fits {w : Nat} (f : Field) (v : BitVec w) : Bool := v >>> f.width == 0#w

/-- `trunc(f, v)`: the field's low bits of the operand, `v` mod 2^width. -/
def trunc {w : Nat} (f : Field) (v : BitVec w) : BitVec f.width := v.setWidth f.width

end Sys2Proof.Machine
end

