-- ==== Sys2Proof/Machine/Flags.lean ====
section
/-! DEFINITION. The error indications: the overflow mask, and the outcome read off the ports. Nothing of this is stored
(10_state.md R23). -/

namespace Sys2Proof.Machine

/-- `ovf(d, t, n, s)`: bit 3 is DIR, bit 2 SIZE, bit 1 TYPE, bit 0 NR, set when the operand does not fit (40_encoder.md
R101, 60_exceptions.md R202). -/
def overflowMask {w : Nat} (d t n z : BitVec w) : OverflowMask :=
  BitVec.ofBool (!fits .dir d) ++ BitVec.ofBool (!fits .size z) ++ BitVec.ofBool (!fits .type t)
    ++ BitVec.ofBool (!fits .nr n)

/-- The outcome a host reads off the output ports: 10_state.md R27. -/
def OutputPorts.outcome (o : OutputPorts) : EvalOutcome :=
  if o.errOp = 1#1 then .illegalOp
  else if o.errOvf ≠ 0#4 then .fieldOverflow o.errOvf
  else .ok o.result

end Sys2Proof.Machine
end

