-- ==== Sys2Proof/Machine/Ops.lean ====
section
/-! DEFINITION. The shared operations: packing and extraction, the checked and unchecked encodes, driving the output ports,
and reporting an error. The block has no memory and no register, so there is no operation over either (20_memory.md R41,
10_state.md R21). -/

namespace Sys2Proof.Machine

/-- `pack(d, t, n, s)`: each field at its shift, joined by OR (40_encoder.md R100, R118). -/
def pack (d : BitVec 2) (t n : BitVec 8) (z : BitVec 14) : Code :=
  (d.setWidth 32 <<< Field.dir.shift) ||| (t.setWidth 32 <<< Field.type.shift)
    ||| (n.setWidth 32 <<< Field.nr.shift) ||| (z.setWidth 32 <<< Field.size.shift)

/-- The bits of one field of a code: 41_decoder.md R150. -/
def extract (f : Field) (c : Code) : BitVec f.width := c.extractLsb' f.shift f.width

/-- The generic unchecked encode: every operand masked to its field (40_encoder.md R107). -/
def encodeUnchecked {w : Nat} (d t n z : BitVec w) : EvalOutcome :=
  .ok (pack (trunc .dir d) (trunc .type t) (trunc .nr n) (trunc .size z))

/-- The generic checked encode: `FieldOverflow` when the mask is not 0, else the packed code (40_encoder.md R102). -/
def encodeChecked {w : Nat} (d t n z : BitVec w) : EvalOutcome :=
  if overflowMask d t n z ≠ 0#4 then .fieldOverflow (overflowMask d t n z)
  else .ok (pack (trunc .dir d) (trunc .type t) (trunc .nr n) (trunc .size z))

/-- The unchecked encode of a builder: DIR comes from the operation (40_encoder.md R108 to R110). -/
def buildUnchecked {w : Nat} (d : Direction) (t n z : BitVec w) : EvalOutcome :=
  .ok (pack (directionBits d) (trunc .type t) (trunc .nr n) (trunc .size z))

/-- The checked encode of a builder: DIR comes from the operation, and the mask is that of the direction's number and the
operands read (40_encoder.md R103 to R106). -/
def buildChecked {w : Nat} (d : Direction) (t n z : BitVec w) : EvalOutcome :=
  if overflowMask ((directionBits d).setWidth w) t n z ≠ 0#4 then
    .fieldOverflow (overflowMask ((directionBits d).setWidth w) t n z)
  else .ok (pack (directionBits d) (trunc .type t) (trunc .nr n) (trunc .size z))

/-- One field of `code_in`, zero-extended to 32 bits (30_encoding.md R74, 41_decoder.md R151 to R154). -/
def decodeField (f : Field) (c : Code) : EvalOutcome := .ok ((extract f c).setWidth 32)

/-- The outputs with the report ports at the given values and the parallel decoder's ports driven from `c`, as on every
evaluation (41_decoder.md R150). -/
def outputsWith (c : Code) (result : Code) (errOvf : OverflowMask) (errOp : BitVec 1) : OutputPorts :=
  { result := result, errOvf := errOvf, errOp := errOp, decNr := extract .nr c, decType := extract .type c,
    decSize := extract .size c, decDir := extract .dir c }

/-- Error "entry" (60_exceptions.md R205): `result` is 0 and the cause code of R200 is driven. Nothing is saved and no
control transfers, so there is no return from it either (R208). -/
def reportError (c : Code) (errOvf : OverflowMask) (errOp : BitVec 1) : OutputPorts := outputsWith c 0#32 errOvf errOp

/-- The outputs of an evaluation with this outcome and this `code_in`: the second case of 10_state.md R28. -/
def driveOutcome (c : Code) : EvalOutcome → OutputPorts
  | .ok r => outputsWith c r 0#4 0#1
  | .fieldOverflow m => reportError c m 0#1
  | .illegalOp => reportError c 0#4 1#1

/-- The evaluation ends in this outcome: the output ports are driven, the input ports and the port width are as they were. -/
def State.conclude (s : State) (o : EvalOutcome) : State := s.withOutputs (driveOutcome s.inp.codeIn o)

/-- The operation select of the evaluation: the `op` port, read in place of any fetch (10_state.md R22). -/
def fetchSelect (s : State) : OpSelect := s.inp.op

/-- A reserved select: outcome `IllegalOp`, with no operand port read (60_exceptions.md R203). It is a next state, since the
block goes on (log 5). -/
def illegalSelect (s : State) : Host.Outcome State Fault Refusal := .next (s.conclude .illegalOp)

end Sys2Proof.Machine
end

