-- ==== Sys2Proof/Machine/CheckedEncode.lean ====
section
/-! DEFINITION. The checked encodes: 40_encoder.md section 2. -/

namespace Sys2Proof.Machine

/-- `ENC dir, type, nr, size`: 40_encoder.md R102. -/
def execEnc (s : State) : Host.Outcome State Fault Refusal :=
  .next (s.conclude (encodeChecked s.inp.inDir s.inp.inType s.inp.inNr s.inp.inSize))

/-- `ENC.N type, nr`: direction NONE and size 0; `in_dir` and `in_size` are not read (R103). -/
def execEncN (s : State) : Host.Outcome State Fault Refusal :=
  .next (s.conclude (buildChecked .none s.inp.inType s.inp.inNr 0))

/-- `ENC.W type, nr, size`: direction WRITE (R104). -/
def execEncW (s : State) : Host.Outcome State Fault Refusal :=
  .next (s.conclude (buildChecked .write s.inp.inType s.inp.inNr s.inp.inSize))

/-- `ENC.R type, nr, size`: direction READ (R105). -/
def execEncR (s : State) : Host.Outcome State Fault Refusal :=
  .next (s.conclude (buildChecked .read s.inp.inType s.inp.inNr s.inp.inSize))

/-- `ENC.RW type, nr, size`: direction READ|WRITE (R106). -/
def execEncRW (s : State) : Host.Outcome State Fault Refusal :=
  .next (s.conclude (buildChecked .readWrite s.inp.inType s.inp.inNr s.inp.inSize))

end Sys2Proof.Machine
end

