-- ==== Sys2Proof/Machine/DecodeFields.lean ====
section
/-! DEFINITION. The decode operations: 41_decoder.md section 2. None ever reports an error (R155, 60_exceptions.md R207). -/

namespace Sys2Proof.Machine

/-- `DEC.NR code`: 41_decoder.md R151. -/
def execDecNr (s : State) : Host.Outcome State Fault Refusal := .next (s.conclude (decodeField .nr s.inp.codeIn))

/-- `DEC.TYPE code`: R152. -/
def execDecType (s : State) : Host.Outcome State Fault Refusal := .next (s.conclude (decodeField .type s.inp.codeIn))

/-- `DEC.SIZE code`: R153. -/
def execDecSize (s : State) : Host.Outcome State Fault Refusal := .next (s.conclude (decodeField .size s.inp.codeIn))

/-- `DEC.DIR code`: R154. -/
def execDecDir (s : State) : Host.Outcome State Fault Refusal := .next (s.conclude (decodeField .dir s.inp.codeIn))

end Sys2Proof.Machine
end

