-- ==== Sys2Proof/Machine/UncheckedEncode.lean ====
section
/-! DEFINITION. The unchecked encodes: 40_encoder.md section 3. None ever reports an error (60_exceptions.md R206). -/

namespace Sys2Proof.Machine

/-- `ENCU dir, type, nr, size`: 40_encoder.md R107. -/
def execEncu (s : State) : Host.Outcome State Fault Refusal :=
  .next (s.conclude (encodeUnchecked s.inp.inDir s.inp.inType s.inp.inNr s.inp.inSize))

/-- `ENCU.W type, nr, size`: direction WRITE (R108). -/
def execEncuW (s : State) : Host.Outcome State Fault Refusal :=
  .next (s.conclude (buildUnchecked .write s.inp.inType s.inp.inNr s.inp.inSize))

/-- `ENCU.R type, nr, size`: direction READ (R109). -/
def execEncuR (s : State) : Host.Outcome State Fault Refusal :=
  .next (s.conclude (buildUnchecked .read s.inp.inType s.inp.inNr s.inp.inSize))

/-- `ENCU.RW type, nr, size`: direction READ|WRITE (R110). -/
def execEncuRW (s : State) : Host.Outcome State Fault Refusal :=
  .next (s.conclude (buildUnchecked .readWrite s.inp.inType s.inp.inNr s.inp.inSize))

end Sys2Proof.Machine
end

