-- ==== Sys2Proof/Machine/Dispatch.lean ====
section
/-! DEFINITION. One arm per operation of the opcode table. -/

namespace Sys2Proof.Machine

def exec (i : Instr) (s : State) : Host.Outcome State Fault Refusal :=
  match i with
  | .enc => Sys2Proof.Machine.execEnc s
  | .encu => Sys2Proof.Machine.execEncu s
  | .encN => Sys2Proof.Machine.execEncN s
  | .encW => Sys2Proof.Machine.execEncW s
  | .encR => Sys2Proof.Machine.execEncR s
  | .encRW => Sys2Proof.Machine.execEncRW s
  | .decNr => Sys2Proof.Machine.execDecNr s
  | .decType => Sys2Proof.Machine.execDecType s
  | .decSize => Sys2Proof.Machine.execDecSize s
  | .decDir => Sys2Proof.Machine.execDecDir s
  | .encuW => Sys2Proof.Machine.execEncuW s
  | .encuR => Sys2Proof.Machine.execEncuR s
  | .encuRW => Sys2Proof.Machine.execEncuRW s

end Sys2Proof.Machine
end

