-- ==== Sys2Proof/Machine/Step.lean ====
section
/-! DEFINITION. One evaluation of the block (10_state.md R28), and the driving of its operation select. -/

namespace Sys2Proof.Machine

/-- One evaluation: the operation the `op` port selects is applied to the values on the other input ports. -/
def step (s : State) : Host.Outcome State Fault Refusal :=
  match decode (fetchSelect s) with
  | .ok i => exec i s
  | .error (.reservedSelect _) => illegalSelect s

/-- The `op` port driven with the select of a table word: the block fetches nothing else (10_state.md R22, log 6). -/
def State.withFetchWord (s : State) (nbits w : Nat) : State :=
  s.withInputs { s.inp with op := selectOfWord nbits w }

end Sys2Proof.Machine
end

