-- ==== Sys2Proof/Machine/Evaluate.lean ====
section
/-! DEFINITION. The whole block as one function of its input ports, in the shape of 10_state.md R28: the description that
`step`, which decodes and dispatches, is held against. -/

namespace Sys2Proof.Machine

/-- The outcome of an evaluation, by the 16 values of `op`: the first case of 10_state.md R28. -/
def outcomeOf {w : Nat} (p : InputPorts w) : EvalOutcome :=
  match p.op with
  | 0x0#4 => encodeChecked p.inDir p.inType p.inNr p.inSize
  | 0x1#4 => encodeUnchecked p.inDir p.inType p.inNr p.inSize
  | 0x4#4 => buildChecked .none p.inType p.inNr 0
  | 0x5#4 => buildChecked .write p.inType p.inNr p.inSize
  | 0x6#4 => buildChecked .read p.inType p.inNr p.inSize
  | 0x7#4 => buildChecked .readWrite p.inType p.inNr p.inSize
  | 0x8#4 => decodeField .nr p.codeIn
  | 0x9#4 => decodeField .type p.codeIn
  | 0xA#4 => decodeField .size p.codeIn
  | 0xB#4 => decodeField .dir p.codeIn
  | 0xD#4 => buildUnchecked .write p.inType p.inNr p.inSize
  | 0xE#4 => buildUnchecked .read p.inType p.inNr p.inSize
  | 0xF#4 => buildUnchecked .readWrite p.inType p.inNr p.inSize
  | _ => .illegalOp

/-- `evaluate` of 10_state.md R28: every output from the inputs alone (R25). -/
def evaluate {w : Nat} (p : InputPorts w) : OutputPorts := driveOutcome p.codeIn (outcomeOf p)

end Sys2Proof.Machine
end

