-- ==== Sys2Proof/Machine/Registry.lean ====
section
/-! DEFINITION. The registry of the "cpipe" driver: constants the encoder must reproduce, not hardware (42_registry.md R180).
The literals are the contract (R185), so they stand here as the source publishes them. -/

namespace Sys2Proof.Machine

/-- The magic of "cpipe", `'p'`: 30_encoding.md R69. -/
def cpipeMagic : Nat := 0x70

/-- `GET_AVAILABLE_READ`: 42_registry.md R181. -/
def getAvailableRead : Code := 2147774464#32

/-- `GET_AVAILABLE_WRITE`: 42_registry.md R182. -/
def getAvailableWrite : Code := 2147774465#32

/-- `MAX_COMMAND_NUMBER`, a plain number: 42_registry.md R183. -/
def maxCommandNumber : Nat := 1

/-- The evaluation that must give `GET_AVAILABLE_READ`: `ENC.R 'p', 0, NATIVE_INT_BYTES` (R181, R184). -/
def getAvailableReadEvaluation : Evaluation Int := .encR cpipeMagic 0 Config.nativeIntBytes

/-- The evaluation that must give `GET_AVAILABLE_WRITE`: `ENC.R 'p', 1, NATIVE_INT_BYTES` (R182, R184). Its direction is READ. -/
def getAvailableWriteEvaluation : Evaluation Int := .encR cpipeMagic 1 Config.nativeIntBytes

end Sys2Proof.Machine
end

