-- ==== Sys2Proof/Machine/Assembler.lean ====
section
/-! DEFINITION. The textual syntax of an evaluation: 30_encoding.md R77 to R79. The rules fix the mnemonics, the operand
order and the literals; spacing, digit case and leading zeros are DESIGN CHOICE, log 8. -/

namespace Sys2Proof.Machine

/-- The mnemonic of an operation, letter for letter: 30_encoding.md R70. -/
def mnemonic : Instr → List Char
  | .enc => "ENC".toList
  | .encu => "ENCU".toList
  | .encN => "ENC.N".toList
  | .encW => "ENC.W".toList
  | .encR => "ENC.R".toList
  | .encRW => "ENC.RW".toList
  | .decNr => "DEC.NR".toList
  | .decType => "DEC.TYPE".toList
  | .decSize => "DEC.SIZE".toList
  | .decDir => "DEC.DIR".toList
  | .encuW => "ENCU.W".toList
  | .encuR => "ENCU.R".toList
  | .encuRW => "ENCU.RW".toList

/-- The source's own name of an operation, an alias of its mnemonic (R79), where column "Source name" of R70 gives one: the
unchecked operations are only described there. -/
def sourceName : Instr → Option (List Char)
  | .enc => some "encode".toList
  | .encN => some "encodeNoTransfer".toList
  | .encW => some "encodeWrite".toList
  | .encR => some "encodeRead".toList
  | .encRW => some "encodeReadWrite".toList
  | .decNr => some "decodeNumber".toList
  | .decType => some "decodeType".toList
  | .decSize => some "decodeSize".toList
  | .decDir => some "decodeDirection".toList
  | .encu | .encuW | .encuR | .encuRW => none

/-- The operations, in the order of the opcode table. -/
def allInstrs : List Instr :=
  [.enc, .encu, .encN, .encW, .encR, .encRW, .decNr, .decType, .decSize, .decDir, .encuW, .encuR, .encuRW]

/-- The operation a name stands for. -/
def instrOfName (name : List Char) : Option Instr :=
  allInstrs.find? fun i => mnemonic i == name || sourceName i == some name

/-- The integer an operand stands for: 30_encoding.md R78. A character is its ASCII code, a name its number (R68). -/
def operandValue : AsmOperand → Int
  | .decimal n => n
  | .hexadecimal n => n
  | .negative n => -n
  | .character c => c.toNat
  | .direction d => (directionBits d).toNat

/-- The evaluations of a line: `DEC code` is the four decodes, in the order of 30_encoding.md R79. -/
def evaluationsOf : AsmLine → List (Evaluation Int)
  | .evaluation e => [e.map operandValue]
  | .decAll c => [.decNr (operandValue c), .decType (operandValue c), .decSize (operandValue c), .decDir (operandValue c)]

/-- The digits a literal of R78 may be written with, each at the place of its value: the ten of a decimal literal are the first
ten of a hexadecimal one. Either case of a letter will do (log 8). -/
def digitAlphabets : List (List Char) := ["0123456789ABCDEF".toList, "0123456789abcdef".toList]

/-- The value of a digit of a base of at most 16: its place among the first `base` digits of an alphabet. -/
def digitValue (base : Nat) (c : Char) : Option Nat :=
  digitAlphabets.findSome? fun alphabet => (alphabet.take base).idxOf? c

/-- The number that one digit or more spell, the last digit having place value 1. -/
def numberOf (base : Nat) (text : List Char) : Option Nat :=
  if text.isEmpty then none else (text.reverse.mapM (digitValue base)).map (Nat.ofDigits base)

/-- A direction name: 30_encoding.md R78. -/
def directionOfName (name : List Char) : Option Direction :=
  if name = "NONE".toList then some .none
  else if name = "WRITE".toList then some .write
  else if name = "READ".toList then some .read
  else if name = "RW".toList then some .readWrite
  else none

/-- An operand of the text: 30_encoding.md R78. -/
def operandOfText : List Char → Option AsmOperand
  | ['\'', c, '\''] => some (.character c)
  | '0' :: 'x' :: digits => (numberOf 16 digits).map .hexadecimal
  | '-' :: digits => (numberOf 10 digits).map .negative
  | text =>
    match numberOf 10 text with
    | some n => some (.decimal n)
    | none => (directionOfName text).map .direction

/-- Text without the spaces at its front. -/
def dropSpaces : List Char → List Char := List.dropWhile (· == ' ')

/-- Text without the spaces at its two ends. -/
def trimSpaces (text : List Char) : List Char := (dropSpaces (dropSpaces text).reverse).reverse

/-- Text cut at its commas; `piece` is the piece being read, last character first. A comma inside a character literal cuts
nothing. -/
def cutAtCommas : List Char → List Char → List (List Char)
  | [], piece => [piece.reverse]
  | '\'' :: c :: '\'' :: rest, piece => cutAtCommas rest ('\'' :: c :: '\'' :: piece)
  | ',' :: rest, piece => piece.reverse :: cutAtCommas rest []
  | c :: rest, piece => cutAtCommas rest (c :: piece)

/-- An operation with its operands, in the order of 30_encoding.md R77; none where their count is wrong. -/
def evaluationOf : Instr → List AsmOperand → Option (Evaluation AsmOperand)
  | .enc, [d, t, n, z] => some (.enc d t n z)
  | .encu, [d, t, n, z] => some (.encu d t n z)
  | .encN, [t, n] => some (.encN t n)
  | .encW, [t, n, z] => some (.encW t n z)
  | .encR, [t, n, z] => some (.encR t n z)
  | .encRW, [t, n, z] => some (.encRW t n z)
  | .decNr, [c] => some (.decNr c)
  | .decType, [c] => some (.decType c)
  | .decSize, [c] => some (.decSize c)
  | .decDir, [c] => some (.decDir c)
  | .encuW, [t, n, z] => some (.encuW t n z)
  | .encuR, [t, n, z] => some (.encuR t n z)
  | .encuRW, [t, n, z] => some (.encuRW t n z)
  | _, _ => none

/-- The line a name and its operands make: the pseudo-instruction `DEC` (30_encoding.md R79), or an operation. -/
def lineOf (name : List Char) (operands : List AsmOperand) : Option AsmLine :=
  if name = "DEC".toList then
    match operands with
    | [c] => some (.decAll c)
    | _ => none
  else
    match instrOfName name with
    | some i => (evaluationOf i operands).map AsmLine.evaluation
    | none => none

/-- A line of the text: a name, then operands between commas. None where it is no line of the syntax, or breaks R78's rule
on where a literal may stand. -/
def lineOfText (text : List Char) : Option AsmLine :=
  let body := trimSpaces text
  let name := body.takeWhile (· != ' ')
  let pieces := (cutAtCommas (dropSpaces (body.dropWhile (· != ' '))) []).map trimSpaces
  match pieces.mapM operandOfText with
  | none => none
  | some operands => (lineOf name operands).filter AsmLine.wellFormed

end Sys2Proof.Machine
end

