-- ==== Sys2Proof/Machine/Session.lean ====
section
/-! DEFINITION. What a host does with the block: it drives the input ports, steps, and reads the output ports (10_state.md
R22, 70_reset_and_hazards.md R246). Forwarding a result and branching are the host's own (95_test_vectors.md section 3). -/

namespace Sys2Proof.Machine

/-- The host drives the six input ports. The port width and the outputs last read stay. -/
def State.drive (s : State) (h : HostValues) : State := s.withInputs (h.onPorts s.width.bits)

/-- A list of evaluations, by one caller or by many in any interleaving (20_memory.md R46, 60_exceptions.md R214): the outputs
the host reads after each (log 9). -/
def hostSession : List HostValues → State → List OutputPorts
  | [], _ => []
  | h :: hs, s =>
    match step (s.drive h) with
    | .next t => t.out :: hostSession hs t
    | .fault _ => []
    | .refused _ => []

/-- The evaluations of a line of the text, one after another. -/
def runLine (l : AsmLine) (s : State) : List OutputPorts :=
  hostSession ((evaluationsOf l).map Evaluation.hostValues) s

end Sys2Proof.Machine
end

