-- ==== Sys2Proof/Safety.lean ====
section
/-! DEFINITION. The terms the statements use: what a legal report is, when the ports are settled, and the outputs as integer
arithmetic on the port values. -/

namespace Sys2Proof.Machine

/-- The reports the block may make: 10_state.md R27, 60_exceptions.md R200, R202, R204, R205. The two error causes never
stand together, and an error drives `result` to 0. -/
def OutputPorts.legalReport (o : OutputPorts) : Prop :=
  (o.errOp = 1#1 → o.errOvf = 0#4 ∧ o.result = 0#32) ∧ (o.errOvf ≠ 0#4 → o.errOp = 0#1 ∧ o.result = 0#32)

/-- The parallel decoder's ports hold the fields of `code_in`, as quotients and remainders (41_decoder.md R150). -/
def State.decoderFollows (s : State) : Prop :=
  s.out.decNr.toNat = s.inp.codeIn.toNat % 256 ∧
  s.out.decType.toNat = s.inp.codeIn.toNat / 2 ^ 8 % 256 ∧
  s.out.decSize.toNat = s.inp.codeIn.toNat / 2 ^ 16 % 16384 ∧
  s.out.decDir.toNat = s.inp.codeIn.toNat / 2 ^ 30

/-- The invariant of the ports: a legal report, and a decoder that follows its input. -/
def State.consistent (s : State) : Prop := s.out.legalReport ∧ s.decoderFollows

/-- The outputs are the function of the current inputs that 10_state.md R28 gives (R25, 70_reset_and_hazards.md R241). -/
def State.settled (s : State) : Prop := s.out = evaluate s.inp

/-- The evaluation reported no error (10_state.md R27). -/
def State.reportsNoError (s : State) : Prop := s.out.errOp = 0#1 ∧ s.out.errOvf = 0#4

/-- The command code the host may use: none when an error is reported (70_reset_and_hazards.md R246 item 3). -/
def OutputPorts.usableResult (o : OutputPorts) : Option Code :=
  match o.outcome with
  | .ok r => some r
  | .fieldOverflow _ => none
  | .illegalOp => none

/-- `s` with the report ports at these values and the decoder's ports computed from `code_in` by division: everything an
evaluation writes. The input ports and the port width are those of `s`. -/
def State.reporting (s : State) (result : Code) (errOvf : OverflowMask) (errOp : BitVec 1) : State :=
  { s with out :=
    { result := result, errOvf := errOvf, errOp := errOp
      decNr := BitVec.ofNat 8 s.inp.codeIn.toNat
      decType := BitVec.ofNat 8 (s.inp.codeIn.toNat / 2 ^ 8)
      decSize := BitVec.ofNat 14 (s.inp.codeIn.toNat / 2 ^ 16)
      decDir := BitVec.ofNat 2 (s.inp.codeIn.toNat / 2 ^ 30) } }

/-- The code with these field values, as a sum (40_encoder.md R118: the OR equals the sum of the shifted values). -/
def codeOfFields (d t n z : Nat) : Code := BitVec.ofNat 32 (d * 2 ^ 30 + z * 2 ^ 16 + t * 2 ^ 8 + n)

/-- The overflow mask as a sum of its bits, by the thresholds of 60_exceptions.md R201 on the unsigned port values. -/
def maskOfFields (d t n z : Nat) : OverflowMask :=
  BitVec.ofNat 4 ((if 4 ≤ d then 8 else 0) + (if 16384 ≤ z then 4 else 0) + (if 256 ≤ t then 2 else 0)
    + (if 256 ≤ n then 1 else 0))

/-- What an evaluation reports: `result`, `err_ovf` and `err_op`. None where it gives no next state. -/
def reportOf : Host.Outcome State Fault Refusal → Option (Code × OverflowMask × BitVec 1)
  | .next t => some (t.out.result, t.out.errOvf, t.out.errOp)
  | .fault _ => none
  | .refused _ => none

/-- The operations that read `in_dir`: 10_state.md R26, column "Read by". -/
def readsDir : Instr → Bool
  | .enc | .encu => true
  | .encN | .encW | .encR | .encRW | .decNr | .decType | .decSize | .decDir | .encuW | .encuR | .encuRW => false

/-- The operations that read `in_type` and `in_nr`: every encode operation (R26). -/
def readsTypeAndNr : Instr → Bool
  | .enc | .encu | .encN | .encW | .encR | .encRW | .encuW | .encuR | .encuRW => true
  | .decNr | .decType | .decSize | .decDir => false

/-- The operations that read `in_size` (R26). -/
def readsSize : Instr → Bool
  | .enc | .encu | .encW | .encR | .encRW | .encuW | .encuR | .encuRW => true
  | .encN | .decNr | .decType | .decSize | .decDir => false

/-- The operations whose report reads `code_in` (R26). -/
def readsCode : Instr → Bool
  | .decNr | .decType | .decSize | .decDir => true
  | .enc | .encu | .encN | .encW | .encR | .encRW | .encuW | .encuR | .encuRW => false

/-- The checked operations: 60_exceptions.md R200, column "Raised by". -/
def isChecked : Instr → Bool
  | .enc | .encN | .encW | .encR | .encRW => true
  | .encu | .decNr | .decType | .decSize | .decDir | .encuW | .encuR | .encuRW => false

/-- The direction a builder fixes: `op[1:0]` of its select (30_encoding.md R71). -/
def fixedDirection : Instr → Option Direction
  | .encN => some .none
  | .encW | .encuW => some .write
  | .encR | .encuR => some .read
  | .encRW | .encuRW => some .readWrite
  | .enc | .encu | .decNr | .decType | .decSize | .decDir => none

/-- The field a decode operation returns: `op[1:0]` of its select (30_encoding.md R71). -/
def decodedField : Instr → Option Field
  | .decNr => some .nr
  | .decType => some .type
  | .decSize => some .size
  | .decDir => some .dir
  | .enc | .encu | .encN | .encW | .encR | .encRW | .encuW | .encuR | .encuRW => none

/-- The direction, type, number and size an encode operation packs, before any masking: an operand it reads as an unsigned
port value, a value it fixes as its number (40_encoder.md R102 to R110). -/
def packedValues (s : State) : Instr → Option (Nat × Nat × Nat × Nat)
  | .enc | .encu => some (s.inp.inDir.toNat, s.inp.inType.toNat, s.inp.inNr.toNat, s.inp.inSize.toNat)
  | .encN => some (0, s.inp.inType.toNat, s.inp.inNr.toNat, 0)
  | .encW | .encuW => some (1, s.inp.inType.toNat, s.inp.inNr.toNat, s.inp.inSize.toNat)
  | .encR | .encuR => some (2, s.inp.inType.toNat, s.inp.inNr.toNat, s.inp.inSize.toNat)
  | .encRW | .encuRW => some (3, s.inp.inType.toNat, s.inp.inNr.toNat, s.inp.inSize.toNat)
  | .decNr | .decType | .decSize | .decDir => none

/-- The value on the operand port of a field (10_state.md R26). -/
def State.operand (s : State) : Field → BitVec s.width.bits
  | .nr => s.inp.inNr
  | .type => s.inp.inType
  | .size => s.inp.inSize
  | .dir => s.inp.inDir

/-- `s` with another value on the operand port of a field. -/
def State.withOperand (s : State) (f : Field) (v : BitVec s.width.bits) : State :=
  match f with
  | .nr => s.withInputs { s.inp with inNr := v }
  | .type => s.withInputs { s.inp with inType := v }
  | .size => s.withInputs { s.inp with inSize := v }
  | .dir => s.withInputs { s.inp with inDir := v }

end Sys2Proof.Machine
end

