-- ==== Sys2Proof/Certificates/Slice0/Obligations.lean ====
section
/-! DEFINITION. The statements for the provers. `State.reporting`, `codeOfFields`, `maskOfFields` and `packedValues`
(Safety.lean) say in integer arithmetic what the model computes with shifts and masks. The block has no memory and no
register (10_state.md R20, R21), so a frame is: the input ports and the port width stay, which `State.reporting` says. -/

open Sys2Proof Sys2Proof.Machine

/-! ## Selects, layout and operands -/

/-- The table of 30_encoding.md R70, all 16 rows; also R75. -/
def Obligations.SelectTable : Prop :=
  decode 0x0#4 = .ok .enc ∧ decode 0x1#4 = .ok .encu ∧
  decode 0x2#4 = .error (.reservedSelect 0x2#4) ∧ decode 0x3#4 = .error (.reservedSelect 0x3#4) ∧
  decode 0x4#4 = .ok .encN ∧ decode 0x5#4 = .ok .encW ∧ decode 0x6#4 = .ok .encR ∧ decode 0x7#4 = .ok .encRW ∧
  decode 0x8#4 = .ok .decNr ∧ decode 0x9#4 = .ok .decType ∧ decode 0xA#4 = .ok .decSize ∧ decode 0xB#4 = .ok .decDir ∧
  decode 0xC#4 = .error (.reservedSelect 0xC#4) ∧
  decode 0xD#4 = .ok .encuW ∧ decode 0xE#4 = .ok .encuR ∧ decode 0xF#4 = .ok .encuRW

/-- Encode and decode of a select are inverse: a select decodes to an operation exactly when it is that operation's. -/
def Obligations.SelectDecodesExactlyItsOperation : Prop :=
  ∀ (i : Instr) (op : OpSelect), decode op = .ok i ↔ op = encode i

/-- 30_encoding.md R71: the four groups by `op[3:2]`, and what `op[1:0]` means in each. -/
def Obligations.SelectGroups : Prop :=
  ∀ op : OpSelect,
    (op.extractLsb' 2 2 = 0b01#2 →
      ∃ i, decode op = .ok i ∧ isChecked i = true ∧ fixedDirection i = some (directionOfBits (op.extractLsb' 0 2))) ∧
    (op.extractLsb' 2 2 = 0b11#2 → op.extractLsb' 0 2 ≠ 0b00#2 →
      ∃ i, decode op = .ok i ∧ isChecked i = false ∧ fixedDirection i = some (directionOfBits (op.extractLsb' 0 2))) ∧
    (op = 0b1100#4 → decode op = .error (.reservedSelect op)) ∧
    (op.extractLsb' 2 2 = 0b10#2 →
      ∃ i f, decode op = .ok i ∧ decodedField i = some f ∧ f.index = (op.extractLsb' 0 2).toNat) ∧
    (op = 0b0000#4 → decode op = .ok .enc ∧ isChecked .enc = true ∧ readsDir .enc = true) ∧
    (op = 0b0001#4 → decode op = .ok .encu ∧ isChecked .encu = false ∧ readsDir .encu = true) ∧
    (op = 0b0010#4 ∨ op = 0b0011#4 → decode op = .error (.reservedSelect op))

/-- Decode and encode agree on whole evaluations: the six port values that encode a well-formed evaluation decode to it, for
every port width, every operation and every operand its port can hold. -/
def Obligations.EvaluationDecodesFromItsPorts : Prop :=
  ∀ (pw : Config.PortWidth) (e : Evaluation Int), e.wellFormed pw.bits = true →
    decodePorts (encodeEvaluation pw.bits e) = .ok e

/-- The other direction: an evaluation read off any port values, put back on ports (with 0 where it reads none), has the
same outcome. -/
def Obligations.DecodedPortsEvaluateAlike : Prop :=
  ∀ (pw : Config.PortWidth) (p : InputPorts pw.bits) (e : Evaluation Int), decodePorts p = .ok e →
    e.wellFormed pw.bits = true ∧ outcomeOf (encodeEvaluation pw.bits e) = outcomeOf p

/-- The table of 30_encoding.md R65. -/
def Obligations.LayoutTable : Prop :=
  (Field.nr.index = 0 ∧ Field.nr.shift = 0 ∧ Field.nr.width = 8 ∧ Field.nr.mask = 0xFF#32 ∧
    Field.nr.maskInPlace = 0x000000FF#32) ∧
  (Field.type.index = 1 ∧ Field.type.shift = 8 ∧ Field.type.width = 8 ∧ Field.type.mask = 0xFF#32 ∧
    Field.type.maskInPlace = 0x0000FF00#32) ∧
  (Field.size.index = 2 ∧ Field.size.shift = 16 ∧ Field.size.width = 14 ∧ Field.size.mask = 0x3FFF#32 ∧
    Field.size.maskInPlace = 0x3FFF0000#32) ∧
  (Field.dir.index = 3 ∧ Field.dir.shift = 30 ∧ Field.dir.width = 2 ∧ Field.dir.mask = 0x3#32 ∧
    Field.dir.maskInPlace = 0xC0000000#32)

/-- 30_encoding.md R68: the four DIR values and their names, and the WRITE flag at bit 30 and the READ flag at bit 31 of a
packed code. -/
def Obligations.DirectionValues : Prop :=
  directionBits .none = 0b00#2 ∧ directionBits .write = 0b01#2 ∧ directionBits .read = 0b10#2 ∧
  directionBits .readWrite = 0b11#2 ∧
  (∀ d, directionOfBits (directionBits d) = d) ∧ (∀ b, directionBits (directionOfBits b) = b) ∧
  ∀ (d : Direction) (t n : BitVec 8) (z : BitVec 14),
    ((pack (directionBits d) t n z).getLsbD 30 = true ↔ d = .write ∨ d = .readWrite) ∧
    ((pack (directionBits d) t n z).getLsbD 31 = true ↔ d = .read ∨ d = .readWrite)

/-- 40_encoder.md R100: `pack` is the concatenation, and the source's expression. -/
def Obligations.PackIsConcatenation : Prop :=
  ∀ (d : BitVec 2) (t n : BitVec 8) (z : BitVec 14),
    pack d t n z = d ++ z ++ t ++ n ∧
    pack d t n z = (d.setWidth 32 <<< 30) ||| (t.setWidth 32 <<< 8) ||| (n.setWidth 32 <<< 0) ||| (z.setWidth 32 <<< 16)

/-- 30_encoding.md R67: the fields tile the code, so packing and extraction are inverse to each other. -/
def Obligations.FieldsTileTheCode : Prop :=
  (∀ c : Code, pack (extract .dir c) (extract .type c) (extract .nr c) (extract .size c) = c) ∧
  (∀ (d : BitVec 2) (t n : BitVec 8) (z : BitVec 14),
    extract .dir (pack d t n z) = d ∧ extract .type (pack d t n z) = t ∧ extract .nr (pack d t n z) = n ∧
    extract .size (pack d t n z) = z)

/-- 40_encoder.md R101: which operand sets which bit of the mask, an operand read as a two's-complement integer. -/
def Obligations.OverflowMaskBits : Prop :=
  ∀ (pw : Config.PortWidth) (d t n z : BitVec pw.bits),
    ((overflowMask d t n z).getLsbD 0 = true ↔ 256 ≤ n.toInt ∨ n.toInt < 0) ∧
    ((overflowMask d t n z).getLsbD 1 = true ↔ 256 ≤ t.toInt ∨ t.toInt < 0) ∧
    ((overflowMask d t n z).getLsbD 2 = true ↔ 16384 ≤ z.toInt ∨ z.toInt < 0) ∧
    ((overflowMask d t n z).getLsbD 3 = true ↔ 4 ≤ d.toInt ∨ d.toInt < 0)

/-- 30_encoding.md R73: the verdicts of `fits` and `trunc` on every integer that the port can hold. -/
def Obligations.HostIntegerVerdicts : Prop :=
  ∀ (pw : Config.PortWidth) (i : Int), -(2 ^ (pw.bits - 1)) ≤ i → i < 2 ^ (pw.bits - 1) → ∀ f : Field,
    (fits f (operandOfInt pw.bits i) = true ↔ 0 ≤ i ∧ i < 2 ^ f.width) ∧
    ((trunc f (operandOfInt pw.bits i)).toNat : Int) = i % 2 ^ f.width

/-- 41_decoder.md R158: an integer of any width, put on `code_in`, has the fields the software's shift and mask give. -/
def Obligations.WideCodeFields : Prop :=
  ∀ (i : Int) (f : Field),
    ((codeOfInt i).toNat : Int) = i % 2 ^ 32 ∧
    ((extract f (codeOfInt i)).toNat : Int) = i / 2 ^ f.shift % 2 ^ f.width

/-! ## The operations: results, reports and frame -/

/-- `ENC`, 40_encoder.md R102, from every state: the code when all four operands fit, the overflow mask otherwise. -/
def Obligations.EncPacksOrReports : Prop :=
  decode 0x0#4 = .ok .enc ∧ ∀ s : State,
    (s.inp.inDir.toNat < 4 ∧ s.inp.inType.toNat < 256 ∧ s.inp.inNr.toNat < 256 ∧ s.inp.inSize.toNat < 16384 →
      exec .enc s = .next (s.reporting
        (codeOfFields s.inp.inDir.toNat s.inp.inType.toNat s.inp.inNr.toNat s.inp.inSize.toNat) 0#4 0#1)) ∧
    (¬(s.inp.inDir.toNat < 4 ∧ s.inp.inType.toNat < 256 ∧ s.inp.inNr.toNat < 256 ∧ s.inp.inSize.toNat < 16384) →
      exec .enc s = .next (s.reporting 0#32
        (maskOfFields s.inp.inDir.toNat s.inp.inType.toNat s.inp.inNr.toNat s.inp.inSize.toNat) 0#1))

/-- `ENC.N`, 40_encoder.md R103, from every state: `in_dir` and `in_size` are neither read nor validated. -/
def Obligations.EncNPacksOrReports : Prop :=
  decode 0x4#4 = .ok .encN ∧ ∀ s : State,
    (s.inp.inType.toNat < 256 ∧ s.inp.inNr.toNat < 256 →
      exec .encN s = .next (s.reporting (codeOfFields 0 s.inp.inType.toNat s.inp.inNr.toNat 0) 0#4 0#1)) ∧
    (¬(s.inp.inType.toNat < 256 ∧ s.inp.inNr.toNat < 256) →
      exec .encN s = .next (s.reporting 0#32 (maskOfFields 0 s.inp.inType.toNat s.inp.inNr.toNat 0) 0#1))

/-- `ENC.W`, `ENC.R` and `ENC.RW`, 40_encoder.md R104 to R106, from every state: DIR is 1, 2 or 3 by the operation. -/
def Obligations.CheckedBuildersPackOrReport : Prop :=
  ∀ (i : Instr) (op : OpSelect) (d : Nat),
    (i, op, d) ∈ [(Instr.encW, 0x5#4, 1), (Instr.encR, 0x6#4, 2), (Instr.encRW, 0x7#4, 3)] →
    decode op = .ok i ∧ ∀ s : State,
    (s.inp.inType.toNat < 256 ∧ s.inp.inNr.toNat < 256 ∧ s.inp.inSize.toNat < 16384 →
      exec i s = .next (s.reporting (codeOfFields d s.inp.inType.toNat s.inp.inNr.toNat s.inp.inSize.toNat) 0#4 0#1)) ∧
    (¬(s.inp.inType.toNat < 256 ∧ s.inp.inNr.toNat < 256 ∧ s.inp.inSize.toNat < 16384) →
      exec i s = .next (s.reporting 0#32
        (maskOfFields d s.inp.inType.toNat s.inp.inNr.toNat s.inp.inSize.toNat) 0#1))

/-- `ENCU`, 40_encoder.md R107, from every state: each operand contributes its low bits, and no error is reported. -/
def Obligations.EncuMasksAndPacks : Prop :=
  decode 0x1#4 = .ok .encu ∧ ∀ s : State, exec .encu s = .next (s.reporting
    (codeOfFields (s.inp.inDir.toNat % 4) (s.inp.inType.toNat % 256) (s.inp.inNr.toNat % 256)
      (s.inp.inSize.toNat % 16384)) 0#4 0#1)

/-- `ENCU.W`, `ENCU.R` and `ENCU.RW`, 40_encoder.md R108 to R110, from every state. -/
def Obligations.UncheckedBuildersMaskAndPack : Prop :=
  ∀ (i : Instr) (op : OpSelect) (d : Nat),
    (i, op, d) ∈ [(Instr.encuW, 0xD#4, 1), (Instr.encuR, 0xE#4, 2), (Instr.encuRW, 0xF#4, 3)] →
    decode op = .ok i ∧ ∀ s : State,
    exec i s = .next (s.reporting
      (codeOfFields d (s.inp.inType.toNat % 256) (s.inp.inNr.toNat % 256) (s.inp.inSize.toNat % 16384)) 0#4 0#1)

/-- `DEC.NR`, `DEC.TYPE`, `DEC.SIZE` and `DEC.DIR`, 41_decoder.md R151 to R154, from every state. -/
def Obligations.DecodesReturnTheirField : Prop :=
  decode 0x8#4 = .ok .decNr ∧ decode 0x9#4 = .ok .decType ∧ decode 0xA#4 = .ok .decSize ∧ decode 0xB#4 = .ok .decDir ∧
  ∀ s : State,
    exec .decNr s = .next (s.reporting (BitVec.ofNat 32 (s.inp.codeIn.toNat % 256)) 0#4 0#1) ∧
    exec .decType s = .next (s.reporting (BitVec.ofNat 32 (s.inp.codeIn.toNat / 2 ^ 8 % 256)) 0#4 0#1) ∧
    exec .decSize s = .next (s.reporting (BitVec.ofNat 32 (s.inp.codeIn.toNat / 2 ^ 16 % 16384)) 0#4 0#1) ∧
    exec .decDir s = .next (s.reporting (BitVec.ofNat 32 (s.inp.codeIn.toNat / 2 ^ 30)) 0#4 0#1)

/-- 10_state.md R29: an operation's report is the same whatever stands on the ports R26 says it does not read, and the
parallel decoder still follows `code_in`. -/
def Obligations.UnreadPortsHaveNoEffect : Prop :=
  ∀ (i : Instr) (s : State) (p : InputPorts s.width.bits),
    (readsDir i = true → p.inDir = s.inp.inDir) →
    (readsTypeAndNr i = true → p.inType = s.inp.inType ∧ p.inNr = s.inp.inNr) →
    (readsSize i = true → p.inSize = s.inp.inSize) →
    (readsCode i = true → p.codeIn = s.inp.codeIn) →
    reportOf (exec i (s.withInputs p)) = reportOf (exec i s) ∧
    ∃ t, exec i (s.withInputs p) = .next t ∧ t.inp.codeIn = p.codeIn ∧ t.decoderFollows

/-! ## The laws of the encoder and the decoder -/

/-- 40_encoder.md R113: where a checked operation reports no overflow, it gives an ok code, and its unchecked counterpart
the same next state. -/
def Obligations.CheckedAgreesWithUnchecked : Prop :=
  ∀ (i j : Instr),
    (i, j) ∈ [(Instr.enc, Instr.encu), (Instr.encW, Instr.encuW), (Instr.encR, Instr.encuR), (Instr.encRW, Instr.encuRW)] →
    ∀ s t : State, exec i s = .next t → t.out.errOvf = 0#4 →
      t.reportsNoError ∧ exec j s = .next t

/-- 40_encoder.md R114: each builder reports what the generic operation reports with the direction's number on `in_dir`
(and 0 on `in_size` for `ENC.N`), the overflow mask included. -/
def Obligations.BuildersAreGenericEncodes : Prop :=
  ∀ s : State,
    reportOf (exec .encN s) = reportOf (exec .enc (s.withInputs { s.inp with inDir := 0, inSize := 0 })) ∧
    reportOf (exec .encW s) = reportOf (exec .enc (s.withInputs { s.inp with inDir := 1 })) ∧
    reportOf (exec .encR s) = reportOf (exec .enc (s.withInputs { s.inp with inDir := 2 })) ∧
    reportOf (exec .encRW s) = reportOf (exec .enc (s.withInputs { s.inp with inDir := 3 })) ∧
    reportOf (exec .encuW s) = reportOf (exec .encu (s.withInputs { s.inp with inDir := 1 })) ∧
    reportOf (exec .encuR s) = reportOf (exec .encu (s.withInputs { s.inp with inDir := 2 })) ∧
    reportOf (exec .encuRW s) = reportOf (exec .encu (s.withInputs { s.inp with inDir := 3 }))

/-- 40_encoder.md R115, for every checked operation: the decodes of a code it gave return the values it packed. -/
def Obligations.CheckedRoundTrip : Prop :=
  ∀ (i : Instr) (s t : State) (d ty n z : Nat), isChecked i = true → packedValues s i = some (d, ty, n, z) →
    exec i s = .next t → t.reportsNoError → ∀ u : State, u.inp.codeIn = t.out.result →
      reportOf (exec .decNr u) = some (BitVec.ofNat 32 n, 0#4, 0#1) ∧ n < 256 ∧
      reportOf (exec .decType u) = some (BitVec.ofNat 32 ty, 0#4, 0#1) ∧ ty < 256 ∧
      reportOf (exec .decSize u) = some (BitVec.ofNat 32 z, 0#4, 0#1) ∧ z < 16384 ∧
      reportOf (exec .decDir u) = some (BitVec.ofNat 32 d, 0#4, 0#1) ∧ d < 4

/-- 40_encoder.md R116, for every unchecked encode: the decodes of its code return the values it packed, each reduced to its
field. -/
def Obligations.UncheckedRoundTrip : Prop :=
  ∀ (i : Instr) (s : State) (d ty n z : Nat), isChecked i = false → packedValues s i = some (d, ty, n, z) →
    ∃ t, exec i s = .next t ∧ t.reportsNoError ∧ ∀ u : State, u.inp.codeIn = t.out.result →
      reportOf (exec .decNr u) = some (BitVec.ofNat 32 (n % 256), 0#4, 0#1) ∧
      reportOf (exec .decType u) = some (BitVec.ofNat 32 (ty % 256), 0#4, 0#1) ∧
      reportOf (exec .decSize u) = some (BitVec.ofNat 32 (z % 16384), 0#4, 0#1) ∧
      reportOf (exec .decDir u) = some (BitVec.ofNat 32 (d % 4), 0#4, 0#1)

/-- 40_encoder.md R117: one operand changed from a fitting value to another moves the code by exactly the difference at the
field's shift, and moves no other field. -/
def Obligations.FieldIndependence : Prop :=
  ∀ (s t : State) (f : Field) (b : BitVec s.width.bits), exec .enc s = .next t → t.reportsNoError → fits f b = true →
    ∃ u, exec .enc (s.withOperand f b) = .next u ∧ u.reportsNoError ∧
      u.out.result - t.out.result = (b.setWidth 32 - (s.operand f).setWidth 32) <<< f.shift ∧
      extract f u.out.result = b.setWidth f.width ∧
      ∀ g : Field, g ≠ f → extract g u.out.result = extract g t.out.result

/-- 41_decoder.md R156: `ENC` and `ENCU` of a code's four fields give the code back, for every code and every port width. -/
def Obligations.ReencodingDecodedFields : Prop :=
  ∀ (s : State) (c : Code),
    let d : Int := (extract .dir c).toNat
    let t : Int := (extract .type c).toNat
    let n : Int := (extract .nr c).toNat
    let z : Int := (extract .size c).toNat
    (∃ u, step (s.drive (Evaluation.enc d t n z).hostValues) = .next u ∧ u.out.outcome = .ok c) ∧
    (∃ u, step (s.drive (Evaluation.encu d t n z).hostValues) = .next u ∧ u.out.outcome = .ok c)

/-- 30_encoding.md R79: the line `DEC code` gives the four fields in the order NR, TYPE, SIZE, DIR, and each of its
evaluations shows the same four on the parallel outputs. -/
def Obligations.DecLineGivesTheTuple : Prop :=
  ∀ (s : State) (a : AsmOperand),
    let c := codeOfInt (operandValue a)
    (runLine (.decAll a) s).map OutputPorts.outcome =
      [.ok ((extract .nr c).setWidth 32), .ok ((extract .type c).setWidth 32), .ok ((extract .size c).setWidth 32),
        .ok ((extract .dir c).setWidth 32)] ∧
    ∀ o ∈ runLine (.decAll a) s,
      o.decNr = extract .nr c ∧ o.decType = extract .type c ∧ o.decSize = extract .size c ∧ o.decDir = extract .dir c

/-! ## The machine as a whole -/

/-- A step runs the operation its `op` port selects. -/
def Obligations.StepRunsTheSelectedOperation : Prop :=
  ∀ (s : State) (i : Instr), decode s.inp.op = .ok i → step s = exec i s

/-- The same for a select driven as a word of the opcode table. -/
def Obligations.FetchWordSelectsTheOperation : Prop :=
  ∀ (s : State) (i : Instr),
    step (s.withFetchWord 8 (encode i).toNat) = exec i (s.withInputs { s.inp with op := encode i })

/-- 60_exceptions.md R203: a reserved select reports `IllegalOp`, whatever the operands are. The step goes on: log 5. -/
def Obligations.ReservedSelectReportsIllegalOp : Prop :=
  ∀ s : State, s.inp.op = 0x2#4 ∨ s.inp.op = 0x3#4 ∨ s.inp.op = 0xC#4 →
    step s = .next (s.reporting 0#32 0#4 1#1)

/-- 10_state.md R28: decoding and dispatching an evaluation is the one function from inputs to outputs that R28 writes
out, and it always has an answer. -/
def Obligations.StepIsEvaluate : Prop :=
  ∀ s : State, step s = .next { s with out := evaluate s.inp }

/-- 41_decoder.md R150: on every evaluation, whatever the select is, the parallel ports hold the slices of `code_in`, which
are its shifts under the masks. -/
def Obligations.ParallelDecoderOnEveryStep : Prop :=
  ∀ s : State, ∃ t, step s = .next t ∧
    t.out.decNr = s.inp.codeIn.extractLsb' 0 8 ∧ t.out.decType = s.inp.codeIn.extractLsb' 8 8 ∧
    t.out.decSize = s.inp.codeIn.extractLsb' 16 14 ∧ t.out.decDir = s.inp.codeIn.extractLsb' 30 2 ∧
    t.out.decNr.setWidth 32 = (s.inp.codeIn >>> 0) &&& 0xFF#32 ∧
    t.out.decType.setWidth 32 = (s.inp.codeIn >>> 8) &&& 0xFF#32 ∧
    t.out.decSize.setWidth 32 = (s.inp.codeIn >>> 16) &&& 0x3FFF#32 ∧
    t.out.decDir.setWidth 32 = (s.inp.codeIn >>> 30) &&& 0x3#32

/-- 60_exceptions.md R200, R206, R207: only a reserved select reports `IllegalOp`, and only a checked encode an overflow. -/
def Obligations.OnlyTheseReportErrors : Prop :=
  ∀ s t : State, step s = .next t →
    (t.out.errOp = 1#1 ↔ s.inp.op = 0x2#4 ∨ s.inp.op = 0x3#4 ∨ s.inp.op = 0xC#4) ∧
    (t.out.errOvf ≠ 0#4 → ∃ i, decode s.inp.op = .ok i ∧ isChecked i = true)

/-- The invariant of the ports: the two error causes never stand together, an error drives `result` to 0, and the parallel
decoder follows `code_in`. A step leaves it true whatever state it starts in, so it keeps it; the port width stays. -/
def Obligations.StepKeepsPortsConsistent : Prop :=
  ∀ s t : State, step s = .next t → t.consistent ∧ t.width = s.width

/-- The state after reset meets the invariant, and its outputs are those of its inputs (70_reset_and_hazards.md R241). The
input values at reset are the model's choice: log 3. -/
def Obligations.ResetConsistent : Prop :=
  State.reset.consistent ∧ State.reset.settled ∧ Sys2Proof.core.step Sys2Proof.core.reset = .next State.reset

/-- 20_memory.md R44: an evaluation is idempotent. Stepping again on the same inputs changes nothing, and a state that a step
leaves as it is is one whose outputs are settled. -/
def Obligations.EvaluationIsIdempotent : Prop :=
  ∀ s : State, (∃ t, step s = .next t ∧ t.settled ∧ step t = .next t) ∧ (step s = .next s ↔ s.settled)

/-- 10_state.md R25: the outputs of each evaluation of a session depend on its own inputs alone, whatever stood on the ports
before and in whatever order the evaluations come. -/
def Obligations.OutputsDependOnCurrentInputsAlone : Prop :=
  ∀ (hs : List HostValues) (s : State),
    hostSession hs s = hs.map (fun h => evaluate (h.onPorts s.width.bits))

/-- 20_memory.md R46: any number of callers, whose evaluations are interleaved in any way, each see what they see alone, on any
instance of the same port width. The number of a call says whose it is. -/
def Obligations.InterleavingCallersSeeNoDifference : Prop :=
  ∀ (calls : List (Nat × HostValues)) (s u : State) (caller : Nat), u.width = s.width →
    ((calls.map Prod.fst).zip (hostSession (calls.map Prod.snd) s)).filterMap
        (fun seen => if seen.1 = caller then some seen.2 else none) =
      hostSession (calls.filterMap (fun call => if call.1 = caller then some call.2 else none)) u

/-- 10_state.md R27: the outcome read off the ports is the outcome driven on them. -/
def Obligations.OutcomeIsReadOffThePorts : Prop :=
  ∀ (c : Code) (o : EvalOutcome), o ≠ .fieldOverflow 0#4 → (driveOutcome c o).outcome = o

/-- 60_exceptions.md R205: an error drives `result` to 0 and gives the host no command code, changes nothing but the outputs,
and an evaluation without error gives exactly its result. -/
def Obligations.ErrorsGiveNoCommandCode : Prop :=
  ∀ s t : State, step s = .next t →
    (¬t.reportsNoError → t.out.result = 0#32 ∧ t.out.usableResult = none) ∧
    (t.reportsNoError → t.out.usableResult = some t.out.result) ∧ t = { s with out := t.out }

/-- 42_registry.md R181, R182, R185: from every state and at every port width, the registry's evaluations give the published
literals. -/
def Obligations.RegistryLiterals : Prop :=
  ∀ s : State,
    (∃ t, step (s.drive getAvailableReadEvaluation.hostValues) = .next t ∧ t.out.outcome = .ok 2147774464#32) ∧
    (∃ t, step (s.drive getAvailableWriteEvaluation.hostValues) = .next t ∧ t.out.outcome = .ok 2147774465#32) ∧
    getAvailableRead = 0x80047000#32 ∧ getAvailableWrite = 0x80047001#32 ∧
    extract .dir getAvailableRead = 2#2 ∧ extract .type getAvailableRead = 0x70#8 ∧ extract .nr getAvailableRead = 0#8 ∧
    extract .size getAvailableRead = 4#14 ∧
    extract .dir getAvailableWrite = 2#2 ∧ extract .type getAvailableWrite = 0x70#8 ∧ extract .nr getAvailableWrite = 1#8 ∧
    extract .size getAvailableWrite = 4#14
end

