-- ==== Sys2Proof/Laws/State.lean ====
section
/-! SUPPORT. One lemma per field per update of the state, true by rfl, so that no later proof unfolds an update. -/

namespace Sys2Proof.Machine

@[simp] theorem State.withInputs_width (s : State) (p : InputPorts s.width.bits) : (s.withInputs p).width = s.width := rfl
@[simp] theorem State.withInputs_inp (s : State) (p : InputPorts s.width.bits) : (s.withInputs p).inp = p := rfl
@[simp] theorem State.withInputs_out (s : State) (p : InputPorts s.width.bits) : (s.withInputs p).out = s.out := rfl
@[simp] theorem State.withOutputs_width (s : State) (o : OutputPorts) : (s.withOutputs o).width = s.width := rfl
@[simp] theorem State.withOutputs_inp (s : State) (o : OutputPorts) : (s.withOutputs o).inp = s.inp := rfl
@[simp] theorem State.withOutputs_out (s : State) (o : OutputPorts) : (s.withOutputs o).out = o := rfl
@[simp] theorem State.conclude_width (s : State) (o : EvalOutcome) : (s.conclude o).width = s.width := rfl
@[simp] theorem State.conclude_inp (s : State) (o : EvalOutcome) : (s.conclude o).inp = s.inp := rfl
@[simp] theorem State.conclude_out (s : State) (o : EvalOutcome) : (s.conclude o).out = driveOutcome s.inp.codeIn o := rfl
@[simp] theorem State.drive_width (s : State) (h : HostValues) : (s.drive h).width = s.width := rfl
@[simp] theorem State.drive_inp (s : State) (h : HostValues) : (s.drive h).inp = h.onPorts s.width.bits := rfl
@[simp] theorem State.drive_out (s : State) (h : HostValues) : (s.drive h).out = s.out := rfl
@[simp] theorem State.withFetchWord_width (s : State) (nbits w : Nat) : (s.withFetchWord nbits w).width = s.width := rfl
@[simp] theorem State.withFetchWord_inp (s : State) (nbits w : Nat) :
    (s.withFetchWord nbits w).inp = { s.inp with op := selectOfWord nbits w } := rfl
@[simp] theorem State.withFetchWord_out (s : State) (nbits w : Nat) : (s.withFetchWord nbits w).out = s.out := rfl
@[simp] theorem State.reporting_width (s : State) (r : Code) (m : OverflowMask) (e : BitVec 1) :
    (s.reporting r m e).width = s.width := rfl
@[simp] theorem State.reporting_inp (s : State) (r : Code) (m : OverflowMask) (e : BitVec 1) :
    (s.reporting r m e).inp = s.inp := rfl
@[simp] theorem State.reporting_result (s : State) (r : Code) (m : OverflowMask) (e : BitVec 1) :
    (s.reporting r m e).out.result = r := rfl
@[simp] theorem State.reporting_errOvf (s : State) (r : Code) (m : OverflowMask) (e : BitVec 1) :
    (s.reporting r m e).out.errOvf = m := rfl
@[simp] theorem State.reporting_errOp (s : State) (r : Code) (m : OverflowMask) (e : BitVec 1) :
    (s.reporting r m e).out.errOp = e := rfl
@[simp] theorem State.withOperand_width (s : State) (f : Field) (v : BitVec s.width.bits) :
    (s.withOperand f v).width = s.width := by cases f <;> rfl

@[simp] theorem outputsWith_result (c r : Code) (m : OverflowMask) (e : BitVec 1) : (outputsWith c r m e).result = r := rfl
@[simp] theorem outputsWith_errOvf (c r : Code) (m : OverflowMask) (e : BitVec 1) : (outputsWith c r m e).errOvf = m := rfl
@[simp] theorem outputsWith_errOp (c r : Code) (m : OverflowMask) (e : BitVec 1) : (outputsWith c r m e).errOp = e := rfl
@[simp] theorem outputsWith_decNr (c r : Code) (m : OverflowMask) (e : BitVec 1) :
    (outputsWith c r m e).decNr = extract .nr c := rfl
@[simp] theorem outputsWith_decType (c r : Code) (m : OverflowMask) (e : BitVec 1) :
    (outputsWith c r m e).decType = extract .type c := rfl
@[simp] theorem outputsWith_decSize (c r : Code) (m : OverflowMask) (e : BitVec 1) :
    (outputsWith c r m e).decSize = extract .size c := rfl
@[simp] theorem outputsWith_decDir (c r : Code) (m : OverflowMask) (e : BitVec 1) :
    (outputsWith c r m e).decDir = extract .dir c := rfl

end Sys2Proof.Machine
end

