-- ==== Sys2Proof/Laws/Ops.lean ====
section
/-! SUPPORT. One lemma for each shared operation: everything it can do, in integers. Proofs cite these and do not unfold the
operation. -/

namespace Sys2Proof.Machine

/-! ## Fields of operands and of codes -/

theorem fits_iff_toNat_lt {w : Nat} (f : Field) (v : BitVec w) : fits f v = true ↔ v.toNat < 2 ^ f.width := by
  simp only [fits, beq_iff_eq, ← BitVec.toNat_inj, BitVec.toNat_ushiftRight, Nat.shiftRight_eq_div_pow, BitVec.toNat_ofNat,
    Nat.zero_mod, Nat.div_eq_zero_iff]
  have := Nat.two_pow_pos f.width
  omega

theorem fits_eq_decide {w : Nat} (f : Field) (v : BitVec w) : fits f v = decide (v.toNat < 2 ^ f.width) := by
  rw [Bool.eq_iff_iff, fits_iff_toNat_lt, decide_eq_true_eq]

theorem trunc_toNat {w : Nat} (f : Field) (v : BitVec w) : (trunc f v).toNat = v.toNat % 2 ^ f.width := by
  simp [trunc]

theorem trunc_toNat_of_fits {w : Nat} {f : Field} {v : BitVec w} (h : fits f v = true) : (trunc f v).toNat = v.toNat := by
  rw [trunc_toNat, Nat.mod_eq_of_lt ((fits_iff_toNat_lt f v).mp h)]

theorem extract_toNat (f : Field) (c : Code) : (extract f c).toNat = c.toNat / 2 ^ f.shift % 2 ^ f.width := by
  simp [extract, Nat.shiftRight_eq_div_pow]

/-! ## The packer -/

theorem setWidth_shiftLeft_toNat {w : Nat} (v : BitVec w) (k : Nat) (h : w + k ≤ 32) :
    (v.setWidth 32 <<< k).toNat = v.toNat <<< k := by
  have hv := v.isLt
  have hk : v.toNat * 2 ^ k < 2 ^ 32 := calc
    v.toNat * 2 ^ k < 2 ^ w * 2 ^ k := Nat.mul_lt_mul_of_pos_right hv (Nat.two_pow_pos k)
    _ = 2 ^ (w + k) := (Nat.pow_add ..).symm
    _ ≤ 2 ^ 32 := Nat.pow_le_pow_right (by decide) h
  have hw : v.toNat < 2 ^ 32 := lt_of_lt_of_le hv (Nat.pow_le_pow_right (by decide) (by omega))
  simp only [BitVec.toNat_shiftLeft, BitVec.toNat_setWidth, Nat.mod_eq_of_lt hw, Nat.shiftLeft_eq, Nat.mod_eq_of_lt hk]

/-- The fields do not overlap, so the OR is the sum (40_encoder.md R118). -/
theorem shifted_or_eq_sum (d z t n : Nat) (hz : z < 2 ^ 14) (ht : t < 2 ^ 8) (hn : n < 2 ^ 8) :
    d <<< 30 ||| t <<< 8 ||| n <<< 0 ||| z <<< 16 = d * 2 ^ 30 + z * 2 ^ 16 + t * 2 ^ 8 + n := by
  have order (a b c e : Nat) : a ||| b ||| c ||| e = a ||| (e ||| (b ||| c)) := by ac_rfl
  have low : t <<< 8 ||| n = t * 2 ^ 8 + n := by
    rw [← Nat.shiftLeft_add_eq_or_of_lt hn, Nat.shiftLeft_eq]
  have mid : z <<< 16 ||| (t * 2 ^ 8 + n) = z * 2 ^ 16 + (t * 2 ^ 8 + n) := by
    rw [← Nat.shiftLeft_add_eq_or_of_lt (show t * 2 ^ 8 + n < 2 ^ 16 by omega), Nat.shiftLeft_eq]
  have high : d <<< 30 ||| (z * 2 ^ 16 + (t * 2 ^ 8 + n)) = d * 2 ^ 30 + (z * 2 ^ 16 + (t * 2 ^ 8 + n)) := by
    rw [← Nat.shiftLeft_add_eq_or_of_lt (show z * 2 ^ 16 + (t * 2 ^ 8 + n) < 2 ^ 30 by omega), Nat.shiftLeft_eq]
  rw [order, Nat.shiftLeft_zero, low, mid, high]
  omega

theorem pack_toNat (d : BitVec 2) (t n : BitVec 8) (z : BitVec 14) :
    (pack d t n z).toNat = d.toNat * 2 ^ 30 + z.toNat * 2 ^ 16 + t.toNat * 2 ^ 8 + n.toNat := by
  simp only [pack, BitVec.toNat_or]
  rw [setWidth_shiftLeft_toNat d _ (by decide), setWidth_shiftLeft_toNat t _ (by decide),
    setWidth_shiftLeft_toNat n _ (by decide), setWidth_shiftLeft_toNat z _ (by decide)]
  exact shifted_or_eq_sum _ _ _ _ z.isLt t.isLt n.isLt

theorem pack_eq_codeOfFields (d : BitVec 2) (t n : BitVec 8) (z : BitVec 14) :
    pack d t n z = codeOfFields d.toNat t.toNat n.toNat z.toNat := by
  have h := (pack d t n z).isLt
  rw [← BitVec.toNat_inj, codeOfFields, BitVec.toNat_ofNat, ← pack_toNat, Nat.mod_eq_of_lt h]

/-! ## The overflow mask -/

theorem overflowMask_eq_maskOfFields {w : Nat} (d t n z : BitVec w) :
    overflowMask d t n z = maskOfFields d.toNat t.toNat n.toNat z.toNat := by
  have bits (a b c e : Prop) [Decidable a] [Decidable b] [Decidable c] [Decidable e] :
      BitVec.ofBool (decide a) ++ BitVec.ofBool (decide b) ++ BitVec.ofBool (decide c) ++ BitVec.ofBool (decide e)
        = BitVec.ofNat 4 ((if a then 8 else 0) + (if b then 4 else 0) + (if c then 2 else 0) + (if e then 1 else 0)) := by
    by_cases a <;> by_cases b <;> by_cases c <;> by_cases e <;> simp [*]
  have overflows (f : Field) (v : BitVec w) : (!fits f v) = decide (2 ^ f.width ≤ v.toNat) := by
    rw [fits_eq_decide, ← decide_not, decide_eq_decide, Nat.not_lt]
  simp only [overflowMask, overflows, bits]
  rfl

theorem maskOfFields_eq_zero_iff (d t n z : Nat) :
    maskOfFields d t n z = 0#4 ↔ d < 4 ∧ t < 256 ∧ n < 256 ∧ z < 16384 := by
  have bits (a b c e : Prop) [Decidable a] [Decidable b] [Decidable c] [Decidable e] :
      BitVec.ofNat 4 ((if a then 8 else 0) + (if b then 4 else 0) + (if c then 2 else 0) + (if e then 1 else 0)) = 0#4
        ↔ ¬a ∧ ¬c ∧ ¬e ∧ ¬b := by
    by_cases a <;> by_cases b <;> by_cases c <;> by_cases e <;> simp [*]
  simp only [maskOfFields, bits, Nat.not_le]

/-! ## The encodes -/

theorem encodeChecked_eq {w : Nat} (d t n z : BitVec w) :
    encodeChecked d t n z =
      if maskOfFields d.toNat t.toNat n.toNat z.toNat = 0#4 then .ok (codeOfFields d.toNat t.toNat n.toNat z.toNat)
      else .fieldOverflow (maskOfFields d.toNat t.toNat n.toNat z.toNat) := by
  rw [encodeChecked, overflowMask_eq_maskOfFields, ite_not]
  split
  next h =>
    obtain ⟨hd, ht, hn, hz⟩ := (maskOfFields_eq_zero_iff _ _ _ _).mp h
    rw [pack_eq_codeOfFields, trunc_toNat_of_fits ((fits_iff_toNat_lt _ _).mpr hd),
      trunc_toNat_of_fits ((fits_iff_toNat_lt _ _).mpr ht), trunc_toNat_of_fits ((fits_iff_toNat_lt _ _).mpr hn),
      trunc_toNat_of_fits ((fits_iff_toNat_lt _ _).mpr hz)]
  next => rfl

theorem encodeUnchecked_eq {w : Nat} (d t n z : BitVec w) :
    encodeUnchecked d t n z =
      .ok (codeOfFields (d.toNat % 4) (t.toNat % 256) (n.toNat % 256) (z.toNat % 16384)) := by
  rw [encodeUnchecked, pack_eq_codeOfFields]
  simp only [trunc_toNat]
  rfl

theorem buildChecked_eq {w : Nat} (hw : 15 ≤ w) (d : Direction) (t n z : BitVec w) :
    buildChecked d t n z =
      if maskOfFields (directionBits d).toNat t.toNat n.toNat z.toNat = 0#4 then
        .ok (codeOfFields (directionBits d).toNat t.toNat n.toNat z.toNat)
      else .fieldOverflow (maskOfFields (directionBits d).toNat t.toNat n.toNat z.toNat) := by
  have hd : ((directionBits d).setWidth w).toNat = (directionBits d).toNat := by
    rw [BitVec.toNat_setWidth, Nat.mod_eq_of_lt]
    exact lt_of_lt_of_le (directionBits d).isLt (Nat.pow_le_pow_right (by decide) (by omega))
  rw [buildChecked, overflowMask_eq_maskOfFields, hd, ite_not]
  split
  next h =>
    obtain ⟨-, ht, hn, hz⟩ := (maskOfFields_eq_zero_iff _ _ _ _).mp h
    rw [pack_eq_codeOfFields, trunc_toNat_of_fits ((fits_iff_toNat_lt _ _).mpr ht),
      trunc_toNat_of_fits ((fits_iff_toNat_lt _ _).mpr hn), trunc_toNat_of_fits ((fits_iff_toNat_lt _ _).mpr hz)]
  next => rfl

theorem buildUnchecked_eq {w : Nat} (d : Direction) (t n z : BitVec w) :
    buildUnchecked d t n z =
      .ok (codeOfFields (directionBits d).toNat (t.toNat % 256) (n.toNat % 256) (z.toNat % 16384)) := by
  rw [buildUnchecked, pack_eq_codeOfFields]
  simp only [trunc_toNat]
  rfl

theorem decodeField_eq (f : Field) (c : Code) :
    decodeField f c = .ok (BitVec.ofNat 32 (c.toNat / 2 ^ f.shift % 2 ^ f.width)) := by
  rw [decodeField, ← extract_toNat, BitVec.ofNat_toNat]

/-! ## Driving the ports -/

theorem outputsWith_eq_reporting (s : State) (r : Code) (m : OverflowMask) (e : BitVec 1) :
    s.withOutputs (outputsWith s.inp.codeIn r m e) = s.reporting r m e := by
  have h (f : Field) : extract f s.inp.codeIn = BitVec.ofNat f.width (s.inp.codeIn.toNat / 2 ^ f.shift) := by
    rw [← BitVec.toNat_inj, extract_toNat, BitVec.toNat_ofNat]
  have h0 := h .nr
  simp only [Nat.pow_zero, Nat.div_one] at h0
  simp only [outputsWith, State.withOutputs, State.reporting, h0, h .type, h .size, h .dir]

theorem conclude_ok (s : State) (r : Code) : s.conclude (.ok r) = s.reporting r 0#4 0#1 := outputsWith_eq_reporting ..

theorem conclude_fieldOverflow (s : State) (m : OverflowMask) : s.conclude (.fieldOverflow m) = s.reporting 0#32 m 0#1 :=
  outputsWith_eq_reporting ..

theorem conclude_illegalOp (s : State) : s.conclude .illegalOp = s.reporting 0#32 0#4 1#1 := outputsWith_eq_reporting ..

/-- Every operation ends in a next state that differs from `s` in its outputs alone. -/
theorem exec_concludes (i : Instr) (s : State) : ∃ o, exec i s = .next (s.conclude o) := by
  cases i <;> exact ⟨_, rfl⟩

/-- So does every step. -/
theorem step_concludes (s : State) : ∃ o, step s = .next (s.conclude o) := by
  unfold step
  split
  · exact exec_concludes _ s
  · exact ⟨_, rfl⟩

end Sys2Proof.Machine
end

