-- ==== Sys2Proof/Laws/PerInstr.lean ====
section
/-! SUPPORT. The family of statements made per instruction: the select the encoder writes is the one the decoder reads. -/

namespace Sys2Proof.Laws.SelectRoundTrip

/-- 30_encoding.md R70: the `op` value of an operation selects it, as a select and as a word of the opcode table. -/
def Statement (i : Instr) : Prop := decode (encode i) = .ok i ∧ decodeTableWord 8 (encode i).toNat = some i

theorem enc : Statement .enc := ⟨rfl, rfl⟩
theorem encu : Statement .encu := ⟨rfl, rfl⟩
theorem encN : Statement .encN := ⟨rfl, rfl⟩
theorem encW : Statement .encW := ⟨rfl, rfl⟩
theorem encR : Statement .encR := ⟨rfl, rfl⟩
theorem encRW : Statement .encRW := ⟨rfl, rfl⟩
theorem decNr : Statement .decNr := ⟨rfl, rfl⟩
theorem decType : Statement .decType := ⟨rfl, rfl⟩
theorem decSize : Statement .decSize := ⟨rfl, rfl⟩
theorem decDir : Statement .decDir := ⟨rfl, rfl⟩
theorem encuW : Statement .encuW := ⟨rfl, rfl⟩
theorem encuR : Statement .encuR := ⟨rfl, rfl⟩
theorem encuRW : Statement .encuRW := ⟨rfl, rfl⟩

end Sys2Proof.Laws.SelectRoundTrip
end

