-- ==== Sys2Proof/Tests/Slice0.lean ====
section
/-! SUPPORT. Small tests. Expected values are those of spec/95_test_vectors.md (V<n>, W<n>, P<n>) or of the rule named. The
last part shows, for each statement with hypotheses, a state and operands that meet them. -/

namespace Sys2Proof.Tests

open Sys2Proof.Machine

/-- Ports of the default width, 32 bits, with these values (the convention of 95_test_vectors.md). -/
def ports (op d t n z c : Nat) : State :=
  State.reset.withInputs
    { op := BitVec.ofNat 4 op, inDir := BitVec.ofNat 32 d, inType := BitVec.ofNat 32 t, inNr := BitVec.ofNat 32 n,
      inSize := BitVec.ofNat 32 z, codeIn := BitVec.ofNat 32 c }

/-- The report of one step. -/
def report (op d t n z c : Nat) : Option (Code × OverflowMask × BitVec 1) := reportOf (step (ports op d t n z c))

/-- The parallel outputs after one step. -/
def fieldsAfter (op c : Nat) : Option (BitVec 8 × BitVec 8 × BitVec 14 × BitVec 2) :=
  match step (ports op 0 0 0 0 c) with
  | .next t => some (t.out.decNr, t.out.decType, t.out.decSize, t.out.decDir)
  | .fault _ => none
  | .refused _ => none

/-! ## Decoding: words written out from 30_encoding.md R70 -/

theorem test_words_generic : decodeTableWord 8 0b0000 = some .enc ∧ decodeTableWord 8 0b0001 = some .encu := by decide
theorem test_words_checked : decodeTableWord 8 0b0100 = some .encN ∧ decodeTableWord 8 0b0101 = some .encW ∧
    decodeTableWord 8 0b0110 = some .encR ∧ decodeTableWord 8 0b0111 = some .encRW := by decide
theorem test_words_decode : decodeTableWord 8 0b1000 = some .decNr ∧ decodeTableWord 8 0b1001 = some .decType ∧
    decodeTableWord 8 0b1010 = some .decSize ∧ decodeTableWord 8 0b1011 = some .decDir := by decide
theorem test_words_unchecked : decodeTableWord 8 0b1101 = some .encuW ∧ decodeTableWord 8 0b1110 = some .encuR ∧
    decodeTableWord 8 0b1111 = some .encuRW := by decide
theorem test_words_reserved : decodeTableWord 8 0b0010 = none ∧ decodeTableWord 8 0b0011 = none ∧
    decodeTableWord 8 0b1100 = none := by decide

/-! ## Well-formedness: each check refuses an ill-formed term -/

theorem test_wf_refuses_negative_operand : (Evaluation.encN (-2147483649) 0).wellFormed 32 = false := by decide
theorem test_wf_refuses_wide_operand : (Evaluation.encW 0 2147483648 0).wellFormed 32 = false := by decide
theorem test_wf_refuses_wide_dir : (Evaluation.encu 2147483648 0 0 0).wellFormed 32 = false := by decide
theorem test_wf_refuses_wide_code : (Evaluation.decNr 4294967296).wellFormed 32 = false := by decide
theorem test_wf_refuses_negative_code : (Evaluation.decDir (-1)).wellFormed 32 = false := by decide
theorem test_wf_refuses_non_ascii : (AsmOperand.character 'é').wellFormed false = false := by decide
theorem test_wf_refuses_name_elsewhere : (AsmLine.evaluation (.encN (.direction .read) (.decimal 0))).wellFormed = false := by
  decide
theorem test_wf_refuses_name_as_code : (AsmLine.decAll (.direction .read)).wellFormed = false := by decide

/-! ## One or two vectors for each operation -/

theorem test_enc_V2 : report 0x0 3 0xFF 0xFF 0x3FFF 0 = some (0xFFFFFFFF, 0, 0) := by decide
theorem test_enc_V12 : report 0x0 4 0x100 0x100 0x4000 0 = some (0, 0b1111, 0) := by decide
theorem test_encN_V18 : report 0x4 7 0x70 0 99999 0 = some (0x00007000, 0, 0) := by decide
theorem test_encN_V19 : report 0x4 0 0x100 0x100 0 0 = some (0, 0b0011, 0) := by decide
theorem test_encW_V22 : report 0x5 0 0x70 0 0x3FFF 0 = some (0x7FFF7000, 0, 0) := by decide
theorem test_encW_V23 : report 0x5 0 0x70 0 0x4000 0 = some (0, 0b0100, 0) := by decide
theorem test_encR_V29 : report 0x6 9 0x70 0 4 0 = some (0x80047000, 0, 0) := by decide
theorem test_encR_V28 : report 0x6 0 0x70 0x100 4 0 = some (0, 0b0001, 0) := by decide
theorem test_encRW_V30 : report 0x7 0 0x70 0 4 0 = some (0xC0047000, 0, 0) := by decide
theorem test_encRW_V32 : report 0x7 0 0x100 0x100 0x4000 0 = some (0, 0b0111, 0) := by decide
theorem test_encu_V33 : report 0x1 5 0x1FF 0x100 0x7FFF 0 = some (0x7FFFFF00, 0, 0) := by decide
theorem test_encu_V35 : report 0x1 0xFFFFFFFF 0xFFFFFFFF 0xFFFFFFFF 0xFFFFFFFF 0 = some (0xFFFFFFFF, 0, 0) := by decide
theorem test_encuW_V38 : report 0xD 0 0x70 2 0x12345 0 = some (0x63457002, 0, 0) := by decide
theorem test_encuR_V40 : report 0xE 0 0x70 0 0x4000 0 = some (0x80007000, 0, 0) := by decide
theorem test_encuR_V41 : report 0xE 0 0x170 0 4 0 = some (0x80047000, 0, 0) := by decide
theorem test_encuRW_V44 : report 0xF 0 0x100 0x100 0x4000 0 = some (0xC0000000, 0, 0) := by decide
theorem test_decNr_V49 : report 0x8 0 0 0 0 0xDEADBEEF = some (239, 0, 0) := by decide
theorem test_decType_V57 : report 0x9 0 0 0 0 0x12345678 = some (86, 0, 0) := by decide
theorem test_decSize_V49 : report 0xA 0 0 0 0 0xDEADBEEF = some (7853, 0, 0) := by decide
theorem test_decSize_V54 : report 0xA 0 0 0 0 0xC0000000 = some (0, 0, 0) := by decide
theorem test_decDir_V56 : report 0xB 0 0 0 0 0x3FFFFFFF = some (0, 0, 0) := by decide
theorem test_reserved_V59 : report 0x2 1 2 3 4 0x80047001 = some (0, 0, 1) := by decide
theorem test_reserved_V59_parallel : fieldsAfter 0x2 0x80047001 = some (1, 0x70, 4, 2) := by decide
theorem test_parallel_V49 : fieldsAfter 0x0 0xDEADBEEF = some (239, 0xBE, 7853, 3) := by decide

/-! ## Text and the host's integers -/

theorem test_text_R102_example : lineOfText "ENC READ, 'p', 0, 4".toList =
    some (.evaluation (.enc (.direction .read) (.character 'p') (.decimal 0) (.decimal 4))) := by decide
theorem test_text_negative_V43 : lineOfText "ENCU.RW  -1, 0x170, ','".toList =
    some (.evaluation (.encuRW (.negative 1) (.hexadecimal 0x170) (.character ','))) := by decide
theorem test_text_source_name : lineOfText "decodeNumber 0x80047001".toList =
    some (.evaluation (.decNr (.hexadecimal 0x80047001))) := by decide
theorem test_text_pseudo_P1 : (runLine (.decAll (.hexadecimal 0x80047001)) State.reset).map (·.result) = [1, 0x70, 4, 2] := by
  decide
theorem test_digits_R78 : numberOf 16 "1eAD".toList = some 7853 ∧ numberOf 10 "4294967295".toList = some 4294967295 ∧
    numberOf 10 "1A".toList = none ∧ numberOf 16 "0g".toList = none ∧ numberOf 16 [] = none := by decide
theorem test_text_refuses_operand_count : lineOfText "ENC.N 1, 2, 3".toList = none := by decide
theorem test_text_refuses_name_outside_dir : lineOfText "ENC.N READ, 0".toList = none := by decide
theorem test_character_R69 : operandValue (.character 'p') = 0x70 := by decide
theorem test_wide_code_R158 : (ports 0x8 0 0 0 0 0x100000001).inp.codeIn = codeOfInt 0x100000001 ∧ codeOfInt 0x100000001 = 1 := by
  decide
theorem test_minus_one_V13 : operandOfInt 32 (-1) = 0xFFFFFFFF := by decide

/-! ## Witnesses: the hypotheses of each statement are met -/

theorem witness_SelectGroups :
    (0x4#4).extractLsb' 2 2 = 0b01#2 ∧ (0x7#4).extractLsb' 2 2 = 0b01#2 ∧
    (0xD#4).extractLsb' 2 2 = 0b11#2 ∧ (0xD#4).extractLsb' 0 2 ≠ 0b00#2 ∧ 0b1100#4 = 0xC#4 ∧
    (0x8#4).extractLsb' 2 2 = 0b10#2 ∧ (0xB#4).extractLsb' 2 2 = 0b10#2 ∧ 0b0010#4 = 0x2#4 := by decide
theorem witness_EvaluationDecodesFromItsPorts_operands :
    (Evaluation.enc (-2147483648) 2147483647 0 16383).wellFormed Config.defaultPortWidth.bits = true := by decide
theorem witness_EvaluationDecodesFromItsPorts_narrowest :
    (Evaluation.encR (-16384) 16383 0).wellFormed (Config.PortWidth.mk 15 (by decide)).bits = true := by decide
theorem witness_EvaluationDecodesFromItsPorts_code :
    (Evaluation.decSize 4294967295).wellFormed Config.defaultPortWidth.bits = true := by decide
theorem witness_DecodedPortsEvaluateAlike :
    decodePorts (ports 0x4 7 0x70 0 99999 5).inp = .ok (.encN 0x70 0) := by decide
theorem witness_HostIntegerVerdicts : -(2 ^ (Config.defaultPortWidth.bits - 1)) ≤ (-2147483648 : Int) ∧
    (2147483647 : Int) < 2 ^ (Config.defaultPortWidth.bits - 1) := by decide
theorem witness_Enc_fits : (ports 0 3 255 255 16383 0).inp.inDir.toNat < 4 ∧ (ports 0 3 255 255 16383 0).inp.inType.toNat < 256 ∧
    (ports 0 3 255 255 16383 0).inp.inNr.toNat < 256 ∧ (ports 0 3 255 255 16383 0).inp.inSize.toNat < 16384 := by decide
theorem witness_Enc_overflows : ¬((ports 0 3 255 255 16384 0).inp.inDir.toNat < 4 ∧
    (ports 0 3 255 255 16384 0).inp.inType.toNat < 256 ∧ (ports 0 3 255 255 16384 0).inp.inNr.toNat < 256 ∧
    (ports 0 3 255 255 16384 0).inp.inSize.toNat < 16384) := by decide
theorem witness_EncN_fits : (ports 4 9 255 255 99999 0).inp.inType.toNat < 256 ∧ (ports 4 9 255 255 99999 0).inp.inNr.toNat < 256 := by
  decide
theorem witness_EncN_overflows :
    ¬((ports 4 0 256 255 0 0).inp.inType.toNat < 256 ∧ (ports 4 0 256 255 0 0).inp.inNr.toNat < 256) := by decide
theorem witness_CheckedBuilders_fit :
    (Instr.encR, 0x6#4, 2) ∈ [(Instr.encW, 0x5#4, 1), (Instr.encR, 0x6#4, 2), (Instr.encRW, 0x7#4, 3)] ∧
    (ports 6 9 255 255 16383 0).inp.inType.toNat < 256 ∧ (ports 6 9 255 255 16383 0).inp.inNr.toNat < 256 ∧
    (ports 6 9 255 255 16383 0).inp.inSize.toNat < 16384 := by decide
theorem witness_CheckedBuilders_overflow : ¬((ports 6 0 255 256 16383 0).inp.inType.toNat < 256 ∧
    (ports 6 0 255 256 16383 0).inp.inNr.toNat < 256 ∧ (ports 6 0 255 256 16383 0).inp.inSize.toNat < 16384) := by decide
theorem witness_UncheckedBuilders :
    (Instr.encuRW, 0xF#4, 3) ∈ [(Instr.encuW, 0xD#4, 1), (Instr.encuR, 0xE#4, 2), (Instr.encuRW, 0xF#4, 3)] := by decide
/-- Ports that differ from `ports 4 7 …` where `ENC.N` reads nothing, and agree where it reads. -/
theorem witness_UnreadPortsHaveNoEffect :
    (readsDir .encN = true → (ports 4 0 0x70 1 0 9).inp.inDir = (ports 4 7 0x70 1 99999 0).inp.inDir) ∧
    (readsTypeAndNr .encN = true → (ports 4 0 0x70 1 0 9).inp.inType = (ports 4 7 0x70 1 99999 0).inp.inType ∧
      (ports 4 0 0x70 1 0 9).inp.inNr = (ports 4 7 0x70 1 99999 0).inp.inNr) ∧
    (readsSize .encN = true → (ports 4 0 0x70 1 0 9).inp.inSize = (ports 4 7 0x70 1 99999 0).inp.inSize) ∧
    (readsCode .encN = true → (ports 4 0 0x70 1 0 9).inp.codeIn = (ports 4 7 0x70 1 99999 0).inp.codeIn) :=
  ⟨nofun, fun _ => ⟨rfl, rfl⟩, nofun, nofun⟩
theorem witness_CheckedAgreesWithUnchecked : ∃ t, exec .encR (ports 6 0 0x70 1 4 0) = .next t ∧ t.out.errOvf = 0#4 :=
  ⟨_, rfl, by decide⟩
theorem witness_CheckedRoundTrip : ∃ t, isChecked .encRW = true ∧
    packedValues (ports 7 0 255 255 16383 0) .encRW = some (3, 255, 255, 16383) ∧
    exec .encRW (ports 7 0 255 255 16383 0) = .next t ∧ t.reportsNoError ∧
    (ports 8 0 0 0 0 0xFFFFFFFF).inp.codeIn = t.out.result :=
  ⟨_, by decide, by decide, rfl, by unfold State.reportsNoError; decide, by decide⟩
theorem witness_UncheckedRoundTrip : isChecked .encu = false ∧
    packedValues (ports 1 5 0x1FF 0x100 0x7FFF 0) .encu = some (5, 0x1FF, 0x100, 0x7FFF) ∧
    (ports 8 0 0 0 0 0x7FFFFF00).inp.codeIn = 0x7FFFFF00#32 ∧ report 1 5 0x1FF 0x100 0x7FFF 0 = some (0x7FFFFF00, 0, 0) := by
  decide
theorem witness_FieldIndependence : ∃ t, exec .enc (ports 0 3 255 0 16383 0) = .next t ∧ t.reportsNoError ∧
    fits .nr (1#32) = true ∧ fits .size (16383#32) = true := ⟨_, rfl, by unfold State.reportsNoError; decide, by decide, by decide⟩
theorem witness_StepRunsTheSelectedOperation : decode (ports 0xB 0 0 0 0 0).inp.op = .ok .decDir := by decide
theorem witness_ReservedSelect : (ports 2 1 2 3 4 5).inp.op = 0x2#4 ∧ (ports 3 0 0 0 0 0).inp.op = 0x3#4 ∧
    (ports 0xC 0 0 0 0 0).inp.op = 0xC#4 := by decide
/-- For the statements about every step: one without an error (ENC), one with an overflow, one with a reserved select. -/
theorem witness_step_ok : ∃ t, step (ports 0 0 0 0 0 7) = .next t ∧ t.reportsNoError :=
  ⟨_, rfl, by unfold State.reportsNoError; decide⟩
theorem witness_step_overflow : ∃ t, step (ports 0 4 0 0 0 7) = .next t ∧ t.out.errOvf ≠ 0#4 ∧ ¬t.reportsNoError :=
  ⟨_, rfl, by decide, by unfold State.reportsNoError; decide⟩
theorem witness_step_reserved : ∃ t, step (ports 3 0 0 0 0 7) = .next t ∧ t.out.errOp = 1#1 ∧ ¬t.reportsNoError :=
  ⟨_, rfl, by decide, by unfold State.reportsNoError; decide⟩
theorem witness_EvaluationIsIdempotent : State.reset.settled ∧ ¬(ports 3 0 0 0 0 7).settled := by
  unfold State.settled; decide
theorem witness_InterleavingCallers : (ports 1 2 3 4 5 6).width = State.reset.width := rfl
theorem witness_OutcomeIsReadOffThePorts :
    EvalOutcome.fieldOverflow 1#4 ≠ .fieldOverflow 0#4 ∧ EvalOutcome.ok 0#32 ≠ .fieldOverflow 0#4 ∧
    EvalOutcome.illegalOp ≠ .fieldOverflow 0#4 := by decide

end Sys2Proof.Tests
end

/-! # Proofs: one evaluation as a function of its input ports

`exec` and `step` both end by driving an outcome on the output ports. The lemmas below name that outcome with R28's own
`outcomeOf`, so that a statement about the machine becomes one about `outcomeOf` and `driveOutcome`. -/

namespace Sys2Proof.Machine

/-! ## The decoder of the select -/

theorem eq_encode_of_decode_eq_ok {op : OpSelect} {i : Instr} (h : decode op = .ok i) : op = encode i := by
  unfold decode at h
  split at h <;> cases h <;> rfl

/-- A select of 30_encoding.md R75 is in no row of R28's table. -/
theorem outcomeOf_eq_illegalOp_of_decode_eq_error {w : Nat} {p : InputPorts w} {e : DecodeError}
    (h : decode p.op = .error e) : outcomeOf p = .illegalOp := by
  unfold outcomeOf
  split
  case h_14 => rfl
  all_goals next hop => rw [hop] at h; cases h

/-! ## What an operation and a step drive -/

/-- An operation looks at its own row of R28's table, whatever stands on `op` (log 10). -/
theorem exec_eq_conclude_outcomeOf (i : Instr) (s : State) :
    exec i s = .next (s.conclude (outcomeOf { s.inp with op := encode i })) := by
  cases i <;> rfl

theorem step_eq_conclude_outcomeOf (s : State) : step s = .next (s.conclude (outcomeOf s.inp)) := by
  unfold step fetchSelect
  split
  next i h => rw [exec_eq_conclude_outcomeOf, ← eq_encode_of_decode_eq_ok h]
  next h => rw [outcomeOf_eq_illegalOp_of_decode_eq_error h, illegalSelect]

theorem step_eq_withOutputs_evaluate (s : State) : step s = .next (s.withOutputs (evaluate s.inp)) :=
  step_eq_conclude_outcomeOf s

/-- Settles O30: the next state is `State.withOutputs` of R28's outputs, written out. -/
theorem stepIsEvaluate : Obligations.StepIsEvaluate :=
  step_eq_withOutputs_evaluate

/-! ## A session -/

theorem hostSession_cons (h : HostValues) (hs : List HostValues) (s : State) :
    hostSession (h :: hs) s = evaluate (h.onPorts s.width.bits) ::
      hostSession hs ((s.drive h).withOutputs (evaluate (h.onPorts s.width.bits))) := by
  rw [hostSession, step_eq_withOutputs_evaluate]
  rfl

/-- Settles O36, by induction on the evaluations for every state at once: of the state that an evaluation leaves, the next
one uses the port width alone. -/
theorem outputsDependOnCurrentInputsAlone : Obligations.OutputsDependOnCurrentInputsAlone := by
  intro hs
  induction hs with
  | nil => intro s; rfl
  | cons h hs ih =>
    intro s
    rw [hostSession_cons, ih, List.map_cons]
    rfl

/-! ## The parallel decoder and the report -/

@[simp] theorem driveOutcome_decNr (c : Code) (o : EvalOutcome) : (driveOutcome c o).decNr = extract .nr c := by
  cases o <;> rfl

@[simp] theorem driveOutcome_decType (c : Code) (o : EvalOutcome) : (driveOutcome c o).decType = extract .type c := by
  cases o <;> rfl

@[simp] theorem driveOutcome_decSize (c : Code) (o : EvalOutcome) : (driveOutcome c o).decSize = extract .size c := by
  cases o <;> rfl

@[simp] theorem driveOutcome_decDir (c : Code) (o : EvalOutcome) : (driveOutcome c o).decDir = extract .dir c := by
  cases o <;> rfl

theorem extract_nr_toNat (c : Code) : (extract .nr c).toNat = c.toNat % 256 := by
  simp [extract_toNat, Field.width]

/-- The topmost field needs no mask: two bits are left above bit 30. -/
theorem extract_dir_toNat (c : Code) : (extract .dir c).toNat = c.toNat / 2 ^ 30 := by
  have hc := c.isLt
  rw [extract_toNat, Nat.mod_eq_of_lt (show c.toNat / 2 ^ 30 < 2 ^ 2 by omega)]

/-- 41_decoder.md R150, whatever the outcome is. -/
theorem State.conclude_decoderFollows (s : State) (o : EvalOutcome) : (s.conclude o).decoderFollows := by
  simp only [State.decoderFollows, State.conclude_out, State.conclude_inp, driveOutcome_decNr, driveOutcome_decType,
    driveOutcome_decSize, driveOutcome_decDir]
  exact ⟨extract_nr_toNat _, extract_toNat .type _, extract_toNat .size _, extract_dir_toNat _⟩

/-- The report is a function of the outcome: `code_in` reaches only the parallel decoder. -/
theorem reportOf_conclude_congr (s t : State) (o : EvalOutcome) :
    reportOf (.next (s.conclude o)) = reportOf (.next (t.conclude o)) := by
  cases o <;> rfl

/-- 10_state.md R26, column "Read by": a row of R28's table mentions only the ports its operation reads. -/
theorem outcomeOf_congr_of_read {w : Nat} {p q : InputPorts w} (i : Instr)
    (hdir : readsDir i = true → p.inDir = q.inDir)
    (htypeNr : readsTypeAndNr i = true → p.inType = q.inType ∧ p.inNr = q.inNr)
    (hsize : readsSize i = true → p.inSize = q.inSize)
    (hcode : readsCode i = true → p.codeIn = q.codeIn) :
    outcomeOf { p with op := encode i } = outcomeOf { q with op := encode i } := by
  cases i with
  | enc | encu =>
    obtain ⟨htype, hnr⟩ := htypeNr rfl
    simp only [outcomeOf, encode, hdir rfl, htype, hnr, hsize rfl]
  | encN =>
    obtain ⟨htype, hnr⟩ := htypeNr rfl
    simp only [outcomeOf, encode, htype, hnr]
  | encW | encR | encRW | encuW | encuR | encuRW =>
    obtain ⟨htype, hnr⟩ := htypeNr rfl
    simp only [outcomeOf, encode, htype, hnr, hsize rfl]
  | decNr | decType | decSize | decDir =>
    simp only [outcomeOf, encode, hcode rfl]

/-- Settles O19: the two evaluations have one outcome, so one report, and the decoder follows under any outcome. -/
theorem unreadPortsHaveNoEffect : Obligations.UnreadPortsHaveNoEffect := by
  intro i s p hdir htypeNr hsize hcode
  have houtcome : outcomeOf { p with op := encode i } = outcomeOf { s.inp with op := encode i } :=
    outcomeOf_congr_of_read i hdir htypeNr hsize hcode
  have hexec : exec i (s.withInputs p) =
      .next ((s.withInputs p).conclude (outcomeOf { s.inp with op := encode i })) := by
    rw [exec_eq_conclude_outcomeOf, ← houtcome]
    rfl
  constructor
  · rw [hexec, exec_eq_conclude_outcomeOf]
    exact reportOf_conclude_congr _ _ _
  · exact ⟨_, hexec, rfl, State.conclude_decoderFollows _ _⟩

end Sys2Proof.Machine

/-! # Proofs: callers that share the block -/

namespace Sys2Proof.Machine

/-- When each call is answered by itself (10_state.md R25), picking one caller's answers out of all of them is answering the
calls picked for that caller. -/
theorem filterMap_zip_map_eq_map_filterMap {α β : Type} (answer : α → β) (calls : List (Nat × α)) (caller : Nat) :
    ((calls.map Prod.fst).zip ((calls.map Prod.snd).map answer)).filterMap
        (fun seen => if seen.1 = caller then some seen.2 else none) =
      (calls.filterMap (fun call => if call.1 = caller then some call.2 else none)).map answer := by
  induction calls with
  | nil => rfl
  | cons call calls ih =>
    by_cases howner : call.1 = caller
    · simp [howner, ih, -List.map_map]
    · simp [howner, ih, -List.map_map]

/-- Settles O37: by R25 both sessions answer each evaluation by itself, and `s` and `u` enter only by their common port
width. -/
theorem interleavingCallersSeeNoDifference : Obligations.InterleavingCallersSeeNoDifference := by
  intro calls s u caller hwidth
  rw [outputsDependOnCurrentInputsAlone, outputsDependOnCurrentInputsAlone, hwidth]
  exact filterMap_zip_map_eq_map_filterMap _ calls caller

end Sys2Proof.Machine

/-! # Proofs: selects, layout, directions and operands

30_encoding.md R65 to R73. -/

namespace Sys2Proof.Machine

/-! ## A host's integer on an operand port -/

theorem operandOfInt_toNat (w : Nat) (i : Int) : ((operandOfInt w i).toNat : Int) = i % 2 ^ w := by
  have hpos : (0 : Int) ≤ i % 2 ^ w := Int.emod_nonneg i (by positivity)
  simp [operandOfInt, BitVec.toNat_ofInt, Int.toNat_of_nonneg hpos]

/-- 00_scope.md R6 makes a port at least 15 bits wide, so below its sign bit there is room for every field. -/
theorem Field.width_le_port_pred (f : Field) (pw : Config.PortWidth) : f.width ≤ pw.bits - 1 := by
  have hwidth : f.width ≤ 14 := by cases f <;> decide
  have hport := pw.atLeast15
  omega

theorem trunc_operandOfInt {w : Nat} (f : Field) (i : Int) (hw : f.width ≤ w) :
    ((trunc f (operandOfInt w i)).toNat : Int) = i % 2 ^ f.width := by
  rw [trunc_toNat, Int.natCast_emod, operandOfInt_toNat, Nat.cast_pow, Nat.cast_ofNat]
  exact Int.emod_emod_of_dvd i (pow_dvd_pow 2 hw)

/-- A nonnegative integer is its own pattern. A negative one has the sign bit set, and its pattern is then too large for any
field that ends below that bit. -/
theorem fits_operandOfInt_iff {w : Nat} (f : Field) (i : Int) (hw : f.width ≤ w) (hlow : -(2 ^ w) ≤ i)
    (hhigh : i < 2 ^ w) : fits f (operandOfInt (w + 1) i) = true ↔ 0 ≤ i ∧ i < 2 ^ f.width := by
  have hroom : (2 : Int) ^ f.width ≤ 2 ^ w := pow_le_pow_right₀ (by decide) hw
  rw [fits_iff_toNat_lt, ← Int.ofNat_lt, Nat.cast_pow, Nat.cast_ofNat, operandOfInt_toNat, pow_succ]
  rcases lt_or_ge i 0 with hneg | hnonneg
  · have hwrap : i % (2 ^ w * 2) = i + 2 ^ w * 2 := by
      rw [← Int.add_emod_right, Int.emod_eq_of_lt (by omega) (by omega)]
    omega
  · rw [Int.emod_eq_of_lt hnonneg (by omega)]
    omega

/-- Settles O11: the port's range is that of its sign bit, and every field ends below it. -/
theorem hostIntegerVerdicts : Obligations.HostIntegerVerdicts := by
  intro pw i hlow hhigh f
  have hroom := f.width_le_port_pred pw
  obtain ⟨w, hbits⟩ : ∃ w, pw.bits = w + 1 := Nat.exists_eq_succ_of_ne_zero (by have := pw.atLeast15; omega)
  rw [hbits, Nat.add_sub_cancel] at hroom hlow hhigh
  rw [hbits]
  exact ⟨fits_operandOfInt_iff f i hroom hlow hhigh, trunc_operandOfInt f i (by omega)⟩

/-! ## The layout -/

/-- Settles O6: the four rows of the table, each computed from the field's width and shift. -/
theorem layoutTable : Obligations.LayoutTable := by
  refine ⟨?nr, ?type, ?size, ?dir⟩
  all_goals exact ⟨rfl, rfl, rfl, rfl, rfl⟩

/-! ## Directions -/

theorem directionOfBits_directionBits (d : Direction) : directionOfBits (directionBits d) = d := by
  cases d <;> rfl

theorem directionBits_directionOfBits : ∀ b : BitVec 2, directionBits (directionOfBits b) = b := by decide

/-- The three lower fields stay below bit 30. -/
theorem extract_dir_pack (d : BitVec 2) (t n : BitVec 8) (z : BitVec 14) : extract .dir (pack d t n z) = d := by
  have ht := t.isLt
  have hn := n.isLt
  have hz := z.isLt
  apply BitVec.eq_of_toNat_eq
  rw [extract_dir_toNat, pack_toNat]
  omega

theorem pack_getLsbD_dir (d : BitVec 2) (t n : BitVec 8) (z : BitVec 14) {k : Nat} (hk : k < 2) :
    (pack d t n z).getLsbD (30 + k) = d.getLsbD k := by
  have hbit : (extract .dir (pack d t n z)).getLsbD k = (pack d t n z).getLsbD (30 + k) := by
    simp [extract, hk]
  rw [← hbit, extract_dir_pack]

theorem directionBits_getLsbD_zero (d : Direction) :
    (directionBits d).getLsbD 0 = true ↔ d = .write ∨ d = .readWrite := by
  cases d <;> decide

theorem directionBits_getLsbD_one (d : Direction) :
    (directionBits d).getLsbD 1 = true ↔ d = .read ∨ d = .readWrite := by
  cases d <;> decide

/-- Settles O7: bits 30 and 31 of a packed code are the two bits of its DIR value. -/
theorem directionValues : Obligations.DirectionValues := by
  refine ⟨rfl, rfl, rfl, rfl, directionOfBits_directionBits, directionBits_directionOfBits, fun d t n z => ⟨?_, ?_⟩⟩
  · rw [pack_getLsbD_dir _ t n z (show 0 < 2 by decide), directionBits_getLsbD_zero]
  · rw [pack_getLsbD_dir _ t n z (show 1 < 2 by decide), directionBits_getLsbD_one]

/-! ## Selects -/

theorem decode_encode (i : Instr) : decode (encode i) = .ok i := by
  cases i <;> rfl

/-- Settles O1: 13 rows are the selects of the operations, and the other three fall through to R75. -/
theorem selectTable : Obligations.SelectTable :=
  ⟨decode_encode .enc, decode_encode .encu, rfl, rfl, decode_encode .encN, decode_encode .encW, decode_encode .encR,
    decode_encode .encRW, decode_encode .decNr, decode_encode .decType, decode_encode .decSize, decode_encode .decDir, rfl,
    decode_encode .encuW, decode_encode .encuR, decode_encode .encuRW⟩

/-- A select is its group `op[3:2]` followed by `op[1:0]`. -/
theorem select_eq_append {op : OpSelect} {group : BitVec 2} (h : op.extractLsb' 2 2 = group) :
    op = group ++ op.extractLsb' 0 2 := by
  subst h
  revert op
  decide

theorem decode_checkedGroup (d : Direction) :
    ∃ i, decode (0b01#2 ++ directionBits d) = .ok i ∧ isChecked i = true ∧ fixedDirection i = some d := by
  cases d with
  | none => exact ⟨.encN, rfl, rfl, rfl⟩
  | write => exact ⟨.encW, rfl, rfl, rfl⟩
  | read => exact ⟨.encR, rfl, rfl, rfl⟩
  | readWrite => exact ⟨.encRW, rfl, rfl, rfl⟩

theorem decode_uncheckedGroup {d : Direction} (h : d ≠ .none) :
    ∃ i, decode (0b11#2 ++ directionBits d) = .ok i ∧ isChecked i = false ∧ fixedDirection i = some d := by
  cases d with
  | none => exact absurd rfl h
  | write => exact ⟨.encuW, rfl, rfl, rfl⟩
  | read => exact ⟨.encuR, rfl, rfl, rfl⟩
  | readWrite => exact ⟨.encuRW, rfl, rfl, rfl⟩

theorem decode_decodeGroup (f : Field) :
    ∃ i, decode (0b10#2 ++ BitVec.ofNat 2 f.index) = .ok i ∧ decodedField i = some f := by
  cases f with
  | nr => exact ⟨.decNr, rfl, rfl⟩
  | type => exact ⟨.decType, rfl, rfl⟩
  | size => exact ⟨.decSize, rfl, rfl⟩
  | dir => exact ⟨.decDir, rfl, rfl⟩

theorem Field.exists_index_eq {k : Nat} (hk : k < 4) : ∃ f : Field, f.index = k := by
  match k with
  | 0 => exact ⟨.nr, rfl⟩
  | 1 => exact ⟨.type, rfl⟩
  | 2 => exact ⟨.size, rfl⟩
  | 3 => exact ⟨.dir, rfl⟩

/-- Settles O3: a select of the groups 01, 11 and 10 is the group followed by the number of a direction or of a field; the
other values are rows of R70's table. -/
theorem selectGroups : Obligations.SelectGroups := by
  intro op
  have hdirection := directionBits_directionOfBits (op.extractLsb' 0 2)
  refine ⟨fun hgroup => ?checked, fun hgroup hlow => ?unchecked, ?reservedC, fun hgroup => ?decodes, ?enc, ?encu, ?reserved⟩
  case checked =>
    obtain ⟨i, hi, hchecked, hfixed⟩ := decode_checkedGroup (directionOfBits (op.extractLsb' 0 2))
    rw [hdirection, ← select_eq_append hgroup] at hi
    exact ⟨i, hi, hchecked, hfixed⟩
  case unchecked =>
    have hdir : directionOfBits (op.extractLsb' 0 2) ≠ .none := fun h => hlow (by rw [← hdirection, h]; rfl)
    obtain ⟨i, hi, hchecked, hfixed⟩ := decode_uncheckedGroup hdir
    rw [hdirection, ← select_eq_append hgroup] at hi
    exact ⟨i, hi, hchecked, hfixed⟩
  case decodes =>
    obtain ⟨f, hf⟩ := Field.exists_index_eq (op.extractLsb' 0 2).isLt
    obtain ⟨i, hi, hfield⟩ := decode_decodeGroup f
    refine ⟨i, f, ?_, hfield, hf⟩
    rwa [hf, BitVec.ofNat_toNat, BitVec.setWidth_eq, ← select_eq_append hgroup] at hi
  case reservedC => rintro rfl; rfl
  case enc => rintro rfl; exact ⟨rfl, rfl, rfl⟩
  case encu => rintro rfl; exact ⟨rfl, rfl, rfl⟩
  case reserved => rintro (rfl | rfl) <;> rfl

end Sys2Proof.Machine

/-! # Proofs: packing a code and taking it apart

40_encoder.md R100, R101, R115 to R118. -/

namespace Sys2Proof.Machine

/-! ## The packer -/

theorem toNat_append_eq_sum {m n : Nat} (x : BitVec m) (y : BitVec n) :
    (x ++ y).toNat = x.toNat * 2 ^ n + y.toNat := by
  rw [BitVec.toNat_append, ← Nat.shiftLeft_add_eq_or_of_lt y.isLt, Nat.shiftLeft_eq]

/-- Settles O8: both sides of the first equation are the sum of the shifted fields (R118), and the second is the packer's own
expression with the shifts of R65. -/
theorem packIsConcatenation : Obligations.PackIsConcatenation := by
  intro d t n z
  refine ⟨?concatenation, rfl⟩
  apply BitVec.eq_of_toNat_eq
  rw [pack_toNat, toNat_append_eq_sum, toNat_append_eq_sum, toNat_append_eq_sum]
  omega

/-! ## The overflow mask -/

/-- Every integer a port's two's complement can mean is in the range of 30_encoding.md R73. -/
theorem fits_iff_toInt (pw : Config.PortWidth) (f : Field) (v : BitVec pw.bits) :
    fits f v = true ↔ 0 ≤ v.toInt ∧ v.toInt < 2 ^ f.width := by
  have hverdict := (hostIntegerVerdicts pw v.toInt v.le_toInt v.toInt_lt f).1
  rwa [operandOfInt, BitVec.ofInt_toInt] at hverdict

/-- A bit of the mask is set by the verdict on its own operand alone. -/
theorem overflowMask_getLsbD {w : Nat} (d t n z : BitVec w) :
    (overflowMask d t n z).getLsbD 0 = !fits .nr n ∧ (overflowMask d t n z).getLsbD 1 = !fits .type t ∧
    (overflowMask d t n z).getLsbD 2 = !fits .size z ∧ (overflowMask d t n z).getLsbD 3 = !fits .dir d := by
  simp only [overflowMask, BitVec.getLsbD_append, BitVec.getLsbD_ofBool]
  simp

theorem not_fits_iff_toInt (pw : Config.PortWidth) (f : Field) (v : BitVec pw.bits) :
    (!fits f v) = true ↔ 2 ^ f.width ≤ v.toInt ∨ v.toInt < 0 := by
  rw [Bool.not_eq_true', ← Bool.not_eq_true, fits_iff_toInt]
  omega

/-- Settles O10: a bit of the mask is the verdict on its operand, and the verdict is one about the operand's integer. -/
theorem overflowMaskBits : Obligations.OverflowMaskBits := by
  intro pw d t n z
  obtain ⟨hnr, htype, hsize, hdir⟩ := overflowMask_getLsbD d t n z
  rw [hnr, htype, hsize, hdir]
  exact ⟨not_fits_iff_toInt pw .nr n, not_fits_iff_toInt pw .type t, not_fits_iff_toInt pw .size z,
    not_fits_iff_toInt pw .dir d⟩

/-! ## A code as a function of its fields -/

theorem codeOfFields_toNat {d t n z : Nat} (hd : d < 4) (ht : t < 256) (hn : n < 256) (hz : z < 16384) :
    (codeOfFields d t n z).toNat = d * 2 ^ 30 + z * 2 ^ 16 + t * 2 ^ 8 + n := by
  rw [codeOfFields, BitVec.toNat_ofNat, Nat.mod_eq_of_lt (by omega)]

/-- `codeOfFields` with its four values indexed by the field. -/
def codeOfValues (v : Field → Nat) : Code := codeOfFields (v .dir) (v .type) (v .nr) (v .size)

theorem forall_lt_iff_fit (v : Field → Nat) :
    (∀ f, v f < 2 ^ f.width) ↔ v .dir < 4 ∧ v .type < 256 ∧ v .nr < 256 ∧ v .size < 16384 := by
  constructor
  · intro hv
    exact ⟨hv .dir, hv .type, hv .nr, hv .size⟩
  · rintro ⟨hd, ht, hn, hz⟩ (_ | _ | _ | _)
    exacts [hn, ht, hz, hd]

theorem extract_codeOfValues {v : Field → Nat} (hv : ∀ f, v f < 2 ^ f.width) (f : Field) :
    extract f (codeOfValues v) = BitVec.ofNat f.width (v f) := by
  obtain ⟨hd, ht, hn, hz⟩ := (forall_lt_iff_fit v).mp hv
  apply BitVec.eq_of_toNat_eq
  rw [BitVec.toNat_ofNat, extract_toNat, codeOfValues, codeOfFields_toNat hd ht hn hz]
  cases f with
  | nr | type | size | dir => dsimp only [Field.width, Field.shift]; omega

theorem shiftLeft_sub_distrib {w : Nat} (x y : BitVec w) (k : Nat) : (x - y) <<< k = x <<< k - y <<< k := by
  simp only [BitVec.shiftLeft_eq_mul_twoPow, sub_mul]

theorem ofNat_mul_two_pow (w x k : Nat) : BitVec.ofNat w (x * 2 ^ k) = BitVec.ofNat w x <<< k := by
  apply BitVec.eq_of_toNat_eq
  simp [Nat.shiftLeft_eq]

theorem codeOfFields_eq_sum (d t n z : Nat) :
    codeOfFields d t n z = BitVec.ofNat 32 d <<< 30 + BitVec.ofNat 32 z <<< 16 + BitVec.ofNat 32 t <<< 8
      + BitVec.ofNat 32 n <<< 0 := by
  simp only [codeOfFields, BitVec.ofNat_add, ofNat_mul_two_pow, BitVec.shiftLeft_zero]

/-- 40_encoder.md R117, whether or not the values fit: a field's value enters the code as one summand. -/
theorem codeOfValues_update_sub (v : Field → Nat) (f : Field) (b : Nat) :
    codeOfValues (Function.update v f b) - codeOfValues v =
      (BitVec.ofNat 32 b - BitVec.ofNat 32 (v f)) <<< f.shift := by
  rw [shiftLeft_sub_distrib, codeOfValues, codeOfValues, codeOfFields_eq_sum, codeOfFields_eq_sum]
  cases f with
  | nr | type | size | dir => simp [Function.update]

end Sys2Proof.Machine

/-! # Proofs: the encode operations

40_encoder.md R102 to R110. All nine encodes are one function of the values they pack and of whether they check. -/

namespace Sys2Proof.Machine

/-! ## What an encode answers -/

/-- What an encode of these values answers, checked or not: 40_encoder.md R102 and R107. -/
def encodeOutcome (d t n z : Nat) : Bool → EvalOutcome
  | true => if maskOfFields d t n z = 0#4 then .ok (codeOfFields d t n z) else .fieldOverflow (maskOfFields d t n z)
  | false => .ok (codeOfFields (d % 4) (t % 256) (n % 256) (z % 16384))

/-- The encodes' rows of R28's table: an operand an operation fixes stands at the same place as one it reads. -/
theorem outcomeOf_eq_encodeOutcome {i : Instr} {s : State} {d t n z : Nat}
    (hvalues : packedValues s i = some (d, t, n, z)) :
    outcomeOf { s.inp with op := encode i } = encodeOutcome d t n z (isChecked i) := by
  have hwidth := s.width.atLeast15
  cases i with
  | enc => cases hvalues; exact encodeChecked_eq ..
  | encu => cases hvalues; exact encodeUnchecked_eq ..
  | encN =>
    cases hvalues
    exact (buildChecked_eq hwidth .none s.inp.inType s.inp.inNr 0#_).trans (by rw [BitVec.toNat_zero]; rfl)
  | encW => cases hvalues; exact buildChecked_eq hwidth .write ..
  | encR => cases hvalues; exact buildChecked_eq hwidth .read ..
  | encRW => cases hvalues; exact buildChecked_eq hwidth .readWrite ..
  | encuW => cases hvalues; exact buildUnchecked_eq .write ..
  | encuR => cases hvalues; exact buildUnchecked_eq .read ..
  | encuRW => cases hvalues; exact buildUnchecked_eq .readWrite ..
  | decNr | decType | decSize | decDir => cases hvalues

theorem exec_eq_conclude_encodeOutcome {i : Instr} {s : State} {d t n z : Nat}
    (hvalues : packedValues s i = some (d, t, n, z)) :
    exec i s = .next (s.conclude (encodeOutcome d t n z (isChecked i))) := by
  rw [exec_eq_conclude_outcomeOf, outcomeOf_eq_encodeOutcome hvalues]

section
variable {i : Instr} {s : State} {d t n z : Nat}

theorem exec_of_unchecked (hunchecked : isChecked i = false) (hvalues : packedValues s i = some (d, t, n, z)) :
    exec i s = .next (s.reporting (codeOfFields (d % 4) (t % 256) (n % 256) (z % 16384)) 0#4 0#1) := by
  rw [exec_eq_conclude_encodeOutcome hvalues, hunchecked, encodeOutcome, conclude_ok]

theorem exec_of_checked_of_fit (hchecked : isChecked i = true) (hvalues : packedValues s i = some (d, t, n, z))
    (hfit : d < 4 ∧ t < 256 ∧ n < 256 ∧ z < 16384) :
    exec i s = .next (s.reporting (codeOfFields d t n z) 0#4 0#1) := by
  rw [exec_eq_conclude_encodeOutcome hvalues, hchecked, encodeOutcome, if_pos ((maskOfFields_eq_zero_iff ..).mpr hfit),
    conclude_ok]

theorem exec_of_checked_of_overflow (hchecked : isChecked i = true) (hvalues : packedValues s i = some (d, t, n, z))
    (hover : ¬(d < 4 ∧ t < 256 ∧ n < 256 ∧ z < 16384)) :
    exec i s = .next (s.reporting 0#32 (maskOfFields d t n z) 0#1) := by
  rw [exec_eq_conclude_encodeOutcome hvalues, hchecked, encodeOutcome, if_neg (mt (maskOfFields_eq_zero_iff ..).mp hover),
    conclude_fieldOverflow]

/-- A checked encode that reports no overflow has packed values that fit, for the mask of values that do not is not 0. -/
theorem fit_and_eq_of_errOvf_eq_zero {u : State} (hchecked : isChecked i = true)
    (hvalues : packedValues s i = some (d, t, n, z)) (hexec : exec i s = .next u) (hovf : u.out.errOvf = 0#4) :
    (d < 4 ∧ t < 256 ∧ n < 256 ∧ z < 16384) ∧ u = s.reporting (codeOfFields d t n z) 0#4 0#1 := by
  by_cases hfit : d < 4 ∧ t < 256 ∧ n < 256 ∧ z < 16384
  · rw [exec_of_checked_of_fit hchecked hvalues hfit] at hexec
    cases hexec
    exact ⟨hfit, rfl⟩
  · rw [exec_of_checked_of_overflow hchecked hvalues hfit] at hexec
    cases hexec
    exact absurd ((maskOfFields_eq_zero_iff ..).mp hovf) hfit

end

/-! ## The operations one by one -/

/-- Settles O13. -/
theorem encPacksOrReports : Obligations.EncPacksOrReports :=
  ⟨decode_encode .enc, fun _ => ⟨exec_of_checked_of_fit rfl rfl, exec_of_checked_of_overflow rfl rfl⟩⟩

/-- Settles O14: the direction 0 and the size 0 that the operation packs always fit. -/
theorem encNPacksOrReports : Obligations.EncNPacksOrReports := by
  refine ⟨decode_encode .encN, fun s => ⟨fun hfit => ?fit, fun hover => ?overflow⟩⟩
  case fit => exact exec_of_checked_of_fit rfl rfl (by omega)
  case overflow => exact exec_of_checked_of_overflow rfl rfl (by omega)

/-- Settles O15: whichever of the three it is, the direction it packs always fits. -/
theorem checkedBuildersPackOrReport : Obligations.CheckedBuildersPackOrReport := by
  intro i op d hmem
  have hbuilder : decode op = .ok i ∧ isChecked i = true ∧ d < 4 ∧ ∀ s : State,
      packedValues s i = some (d, s.inp.inType.toNat, s.inp.inNr.toNat, s.inp.inSize.toNat) := by
    simp only [List.mem_cons, Prod.mk.injEq, List.not_mem_nil, or_false] at hmem
    obtain ⟨rfl, rfl, rfl⟩ | ⟨rfl, rfl, rfl⟩ | ⟨rfl, rfl, rfl⟩ := hmem
    all_goals exact ⟨rfl, rfl, by decide, fun _ => rfl⟩
  obtain ⟨hop, hchecked, hd, hvalues⟩ := hbuilder
  refine ⟨hop, fun s => ⟨fun hfit => ?fit, fun hover => ?overflow⟩⟩
  case fit => exact exec_of_checked_of_fit hchecked (hvalues s) ⟨hd, hfit⟩
  case overflow => exact exec_of_checked_of_overflow hchecked (hvalues s) fun hfit => hover hfit.2

/-- Settles O16. -/
theorem encuMasksAndPacks : Obligations.EncuMasksAndPacks :=
  ⟨decode_encode .encu, fun _ => exec_of_unchecked rfl rfl⟩

/-- Settles O17: the direction an unchecked builder packs is below 4, so no bit of it is masked off. -/
theorem uncheckedBuildersMaskAndPack : Obligations.UncheckedBuildersMaskAndPack := by
  intro i op d hmem
  have hbuilder : decode op = .ok i ∧ isChecked i = false ∧ d < 4 ∧ ∀ s : State,
      packedValues s i = some (d, s.inp.inType.toNat, s.inp.inNr.toNat, s.inp.inSize.toNat) := by
    simp only [List.mem_cons, Prod.mk.injEq, List.not_mem_nil, or_false] at hmem
    obtain ⟨rfl, rfl, rfl⟩ | ⟨rfl, rfl, rfl⟩ | ⟨rfl, rfl, rfl⟩ := hmem
    all_goals exact ⟨rfl, rfl, by decide, fun _ => rfl⟩
  obtain ⟨hop, hunchecked, hd, hvalues⟩ := hbuilder
  refine ⟨hop, fun s => ?_⟩
  rw [exec_of_unchecked hunchecked (hvalues s), Nat.mod_eq_of_lt hd]

end Sys2Proof.Machine

/-! # Proofs: the laws of the encoder

40_encoder.md R113 to R117. -/

namespace Sys2Proof.Machine

/-! ## Checked and unchecked, builder and generic -/

/-- Settles O20: the two operations pack the same values, and values that fit are their own remainders. -/
theorem checkedAgreesWithUnchecked : Obligations.CheckedAgreesWithUnchecked := by
  intro i j hmem s u hexec hovf
  have hpair : isChecked i = true ∧ isChecked j = false ∧
      ∃ d, packedValues s i = some (d, s.inp.inType.toNat, s.inp.inNr.toNat, s.inp.inSize.toNat) ∧
        packedValues s j = some (d, s.inp.inType.toNat, s.inp.inNr.toNat, s.inp.inSize.toNat) := by
    simp only [List.mem_cons, Prod.mk.injEq, List.not_mem_nil, or_false] at hmem
    obtain ⟨rfl, rfl⟩ | ⟨rfl, rfl⟩ | ⟨rfl, rfl⟩ | ⟨rfl, rfl⟩ := hmem
    all_goals exact ⟨rfl, rfl, _, rfl, rfl⟩
  obtain ⟨hi, hj, d, hvaluesI, hvaluesJ⟩ := hpair
  obtain ⟨⟨hd, ht, hn, hz⟩, rfl⟩ := fit_and_eq_of_errOvf_eq_zero hi hvaluesI hexec hovf
  refine ⟨⟨rfl, rfl⟩, ?_⟩
  rw [exec_of_unchecked hj hvaluesJ, Nat.mod_eq_of_lt hd, Nat.mod_eq_of_lt ht, Nat.mod_eq_of_lt hn, Nat.mod_eq_of_lt hz]

/-- An encode's report depends on nothing but whether it checks and what it packs. -/
theorem reportOf_exec_congr {i j : Instr} {s u : State} {d t n z : Nat} (hchecked : isChecked i = isChecked j)
    (hs : packedValues s i = some (d, t, n, z)) (hu : packedValues u j = some (d, t, n, z)) :
    reportOf (exec i s) = reportOf (exec j u) := by
  rw [exec_eq_conclude_encodeOutcome hs, exec_eq_conclude_encodeOutcome hu, hchecked]
  exact reportOf_conclude_congr ..

/-- 00_scope.md R6: a port has room for a direction's number. -/
theorem directionNumber_toNat (pw : Config.PortWidth) {k : Nat} (hk : k < 4) : (BitVec.ofNat pw.bits k).toNat = k := by
  rw [BitVec.toNat_ofNat, Nat.mod_eq_of_lt]
  calc
    k < 2 ^ 2 := hk
    _ ≤ 2 ^ pw.bits := Nat.pow_le_pow_right (by decide) (by have := pw.atLeast15; omega)

/-- What a generic encode packs with a direction's number on `in_dir`. -/
theorem packedValues_generic_withDir {i : Instr} (hgeneric : readsDir i = true) (s : State) {k : Nat} (hk : k < 4)
    (z : BitVec s.width.bits) :
    packedValues (s.withInputs { s.inp with inDir := BitVec.ofNat s.width.bits k, inSize := z }) i =
      some (k, s.inp.inType.toNat, s.inp.inNr.toNat, z.toNat) := by
  cases i with
  | enc | encu => simp only [packedValues, State.withInputs_inp, State.withInputs_width, directionNumber_toNat _ hk]
  | encN | encW | encR | encRW | decNr | decType | decSize | decDir | encuW | encuR | encuRW => cases hgeneric

/-- Settles O21: each builder packs what the generic operation of its kind then reads. -/
theorem buildersAreGenericEncodes : Obligations.BuildersAreGenericEncodes := by
  intro s
  refine ⟨?encN, ?encW, ?encR, ?encRW, ?encuW, ?encuR, ?encuRW⟩
  case encN =>
    refine reportOf_exec_congr rfl rfl ?_
    exact (packedValues_generic_withDir rfl s (show 0 < 4 by decide) 0#_).trans (by rw [BitVec.toNat_zero])
  case encW | encuW => exact reportOf_exec_congr rfl rfl (packedValues_generic_withDir rfl s (show 1 < 4 by decide) _)
  case encR | encuR => exact reportOf_exec_congr rfl rfl (packedValues_generic_withDir rfl s (show 2 < 4 by decide) _)
  case encRW | encuRW => exact reportOf_exec_congr rfl rfl (packedValues_generic_withDir rfl s (show 3 < 4 by decide) _)

/-! ## The round trip through a decode -/

/-- The operation that decodes a field: 41_decoder.md R151 to R154. -/
def Field.decoder : Field → Instr
  | .nr => .decNr
  | .type => .decType
  | .size => .decSize
  | .dir => .decDir

theorem reportOf_exec_decoder (f : Field) (u : State) :
    reportOf (exec f.decoder u) = some ((extract f u.inp.codeIn).setWidth 32, 0#4, 0#1) := by
  cases f <;> rfl

theorem reportOf_exec_decoder_of_codeOfValues {v : Field → Nat} (hv : ∀ f, v f < 2 ^ f.width) {u : State}
    (hcode : u.inp.codeIn = codeOfValues v) (f : Field) :
    reportOf (exec f.decoder u) = some (BitVec.ofNat 32 (v f), 0#4, 0#1) := by
  have hwidth : f.width ≤ 32 := by cases f <;> decide
  rw [reportOf_exec_decoder, hcode, extract_codeOfValues hv, BitVec.setWidth_ofNat_of_le_of_lt hwidth (hv f)]

/-- Four values as one value per field. -/
def fieldValues (d t n z : Nat) : Field → Nat
  | .nr => n
  | .type => t
  | .size => z
  | .dir => d

/-- Settles O22: a code given without error holds values that fit, and a decode returns the value at its field. -/
theorem checkedRoundTrip : Obligations.CheckedRoundTrip := by
  intro i s t d ty n z hchecked hvalues hexec hok u hcode
  obtain ⟨hfit, rfl⟩ := fit_and_eq_of_errOvf_eq_zero hchecked hvalues hexec hok.2
  have hdecode := reportOf_exec_decoder_of_codeOfValues (v := fieldValues _ _ _ _) ((forall_lt_iff_fit _).mpr hfit) hcode
  obtain ⟨hd, hty, hn, hz⟩ := hfit
  exact ⟨hdecode .nr, hn, hdecode .type, hty, hdecode .size, hz, hdecode .dir, hd⟩

/-- Settles O23: each value is packed as its remainder, which fits its field. -/
theorem uncheckedRoundTrip : Obligations.UncheckedRoundTrip := by
  intro i s d ty n z hunchecked hvalues
  refine ⟨_, exec_of_unchecked hunchecked hvalues, ⟨rfl, rfl⟩, fun u hcode => ?_⟩
  have hfit : d % 4 < 4 ∧ ty % 256 < 256 ∧ n % 256 < 256 ∧ z % 16384 < 16384 := by omega
  have hdecode := reportOf_exec_decoder_of_codeOfValues (v := fieldValues _ _ _ _) ((forall_lt_iff_fit _).mpr hfit) hcode
  exact ⟨hdecode .nr, hdecode .type, hdecode .size, hdecode .dir⟩

/-! ## One operand changed -/

/-- The values on the operand ports, field by field. -/
def State.operandValues (s : State) (f : Field) : Nat := (s.operand f).toNat

theorem packedValues_enc (s : State) : packedValues s .enc =
    some (s.operandValues .dir, s.operandValues .type, s.operandValues .nr, s.operandValues .size) := rfl

theorem State.operandValues_withOperand (s : State) (f : Field) (b : BitVec s.width.bits) :
    (s.withOperand f b).operandValues = Function.update s.operandValues f b.toNat := by
  funext g
  cases f <;> cases g <;> rfl

/-- Settles O24: the new operands are the old ones updated at `f`, they fit as well, and a field's value enters the code as
one summand. -/
theorem fieldIndependence : Obligations.FieldIndependence := by
  intro s t f b hexec hok hb
  obtain ⟨hfit, rfl⟩ := fit_and_eq_of_errOvf_eq_zero rfl (packedValues_enc s) hexec hok.2
  have hold : ∀ g, s.operandValues g < 2 ^ g.width := (forall_lt_iff_fit _).mpr hfit
  have hnew : ∀ g, Function.update s.operandValues f b.toNat g < 2 ^ g.width :=
    (Function.forall_update_iff s.operandValues fun g x => x < 2 ^ g.width).mpr
      ⟨(fits_iff_toNat_lt f b).mp hb, fun g _ => hold g⟩
  have hexec' : exec .enc (s.withOperand f b) = .next ((s.withOperand f b).reporting
      (codeOfValues (Function.update s.operandValues f b.toNat)) 0#4 0#1) := by
    rw [← State.operandValues_withOperand] at hnew ⊢
    exact exec_of_checked_of_fit rfl (packedValues_enc _) ((forall_lt_iff_fit _).mp hnew)
  refine ⟨_, hexec', ⟨rfl, rfl⟩, ?difference, ?changed, fun g hg => ?others⟩
  case difference =>
    rw [← BitVec.ofNat_toNat, ← BitVec.ofNat_toNat]
    exact codeOfValues_update_sub s.operandValues f b.toNat
  case changed =>
    rw [State.reporting_result, extract_codeOfValues hnew, Function.update_self, BitVec.ofNat_toNat]
  case others =>
    rw [State.reporting_result, extract_codeOfValues hnew, Function.update_of_ne hg]
    exact (extract_codeOfValues hold g).symm

end Sys2Proof.Machine

/-! # Proofs: the decoder

41_decoder.md R150 to R154 and R158: a field of `code_in` on the parallel outputs, on `result`, and of a host's integer. -/

namespace Sys2Proof.Machine

/-! ## A host's integer on `code_in` -/

theorem codeOfInt_toNat (i : Int) : ((codeOfInt i).toNat : Int) = i % 2 ^ 32 := operandOfInt_toNat 32 i

/-- Every field lies below bit 32, so what `code_in` drops of the integer is above the field. -/
theorem extract_codeOfInt_toNat (i : Int) (f : Field) :
    ((extract f (codeOfInt i)).toNat : Int) = i / 2 ^ f.shift % 2 ^ f.width := by
  have hfield : ((extract f (codeOfInt i)).toNat : Int) = i % 2 ^ 32 / 2 ^ f.shift % 2 ^ f.width := by
    rw [extract_toNat, ← codeOfInt_toNat, Int.natCast_emod, Int.natCast_ediv, Nat.cast_pow, Nat.cast_pow, Nat.cast_ofNat]
  rw [hfield]
  cases f with
  | nr | type | size | dir => dsimp only [Field.shift, Field.width]; omega

/-- Settles O12. -/
theorem wideCodeFields : Obligations.WideCodeFields :=
  fun i f => ⟨codeOfInt_toNat i, extract_codeOfInt_toNat i f⟩

/-! ## The decode operations -/

theorem exec_decoder_of_extract_toNat (f : Field) {s : State} {n : Nat} (hn : (extract f s.inp.codeIn).toNat = n) :
    exec f.decoder s = .next (s.reporting (BitVec.ofNat 32 n) 0#4 0#1) := by
  have hexec : exec f.decoder s = .next (s.conclude (decodeField f s.inp.codeIn)) := by cases f <;> rfl
  rw [hexec, decodeField, conclude_ok, ← hn, BitVec.ofNat_toNat]

/-- Settles O18: the four operations are one function of the field they return. -/
theorem decodesReturnTheirField : Obligations.DecodesReturnTheirField := by
  refine ⟨decode_encode .decNr, decode_encode .decType, decode_encode .decSize, decode_encode .decDir,
    fun s => ⟨?nr, ?type, ?size, ?dir⟩⟩
  case nr => exact exec_decoder_of_extract_toNat .nr (extract_nr_toNat _)
  case type => exact exec_decoder_of_extract_toNat .type (extract_toNat .type _)
  case size => exact exec_decoder_of_extract_toNat .size (extract_toNat .size _)
  case dir => exact exec_decoder_of_extract_toNat .dir (extract_dir_toNat _)

/-! ## The parallel decoder -/

theorem Field.mask_toNat (f : Field) : f.mask.toNat = 2 ^ f.width - 1 := by
  cases f <;> rfl

/-- 41_decoder.md R150: a slice of the code is its shift under the mask. -/
theorem extract_setWidth_eq_shift_and_mask (f : Field) (c : Code) :
    (extract f c).setWidth 32 = (c >>> f.shift) &&& f.mask := by
  have hwidth : f.width ≤ 32 := by cases f <;> decide
  apply BitVec.eq_of_toNat_eq
  rw [BitVec.toNat_setWidth_of_le hwidth, extract_toNat, BitVec.toNat_and, BitVec.toNat_ushiftRight, Field.mask_toNat,
    Nat.and_two_pow_sub_one_eq_mod, Nat.shiftRight_eq_div_pow]

/-- Settles O31: whatever outcome a step drives, the parallel ports are driven with the fields of `code_in`. -/
theorem parallelDecoderOnEveryStep : Obligations.ParallelDecoderOnEveryStep := by
  intro s
  refine ⟨_, step_eq_conclude_outcomeOf s, ?_⟩
  simp only [State.conclude_out, driveOutcome_decNr, driveOutcome_decType, driveOutcome_decSize, driveOutcome_decDir]
  have hmasked (f : Field) := extract_setWidth_eq_shift_and_mask f s.inp.codeIn
  exact ⟨rfl, rfl, rfl, rfl, hmasked .nr, hmasked .type, hmasked .size, hmasked .dir⟩

end Sys2Proof.Machine

/-! # Proofs: the registry

42_registry.md R181, R182 and R185. The two entries are `ENC.R` of values that fit their fields, so the facts about `ENC.R`
stand here for all such values. -/

namespace Sys2Proof.Machine

/-! ## A driven evaluation -/

/-- The `op` port a host drives for an evaluation selects its operation, whatever the operands are. -/
theorem step_drive_hostValues (e : Evaluation Int) (s : State) :
    step (s.drive e.hostValues) = exec e.instr (s.drive e.hostValues) := by
  cases e <;> rfl

/-- An integer that fits a field reaches a port of any width unchanged, for the port is wider than every field. -/
theorem operandOfInt_natCast_toNat (pw : Config.PortWidth) (f : Field) {n : Nat} (hn : n < 2 ^ f.width) :
    (operandOfInt pw.bits n).toNat = n := by
  have hroom : f.width ≤ pw.bits := (f.width_le_port_pred pw).trans (Nat.sub_le ..)
  have hlt : n < 2 ^ pw.bits := hn.trans_le (Nat.pow_le_pow_right (by decide) hroom)
  have hport := operandOfInt_toNat pw.bits n
  norm_cast at hport
  rwa [Nat.mod_eq_of_lt hlt] at hport

theorem packedValues_drive_encR {t n z : Nat} (ht : t < 256) (hn : n < 256) (hz : z < 16384) (s : State) :
    packedValues (s.drive (Evaluation.encR (t : Int) n z).hostValues) .encR = some (2, t, n, z) := by
  have hports : packedValues (s.drive (Evaluation.encR (t : Int) n z).hostValues) .encR =
      some (2, (operandOfInt s.width.bits t).toNat, (operandOfInt s.width.bits n).toNat,
        (operandOfInt s.width.bits z).toNat) := rfl
  rw [hports, operandOfInt_natCast_toNat s.width .type ht, operandOfInt_natCast_toNat s.width .nr hn,
    operandOfInt_natCast_toNat s.width .size hz]

/-- 40_encoder.md R105, from a host's integers to the outcome it reads. -/
theorem step_drive_encR {t n z : Nat} (ht : t < 256) (hn : n < 256) (hz : z < 16384) (s : State) :
    ∃ u, step (s.drive (Evaluation.encR (t : Int) n z).hostValues) = .next u ∧
      u.out.outcome = .ok (codeOfFields 2 t n z) := by
  have hexec := exec_of_checked_of_fit rfl (packedValues_drive_encR ht hn hz s) ⟨by decide, ht, hn, hz⟩
  exact ⟨_, (step_drive_hostValues _ s).trans hexec, rfl⟩

/-! ## The published literals -/

theorem getAvailableRead_eq_codeOfFields : getAvailableRead = codeOfFields 2 cpipeMagic 0 Config.nativeIntBytes := rfl

theorem getAvailableWrite_eq_codeOfFields : getAvailableWrite = codeOfFields 2 cpipeMagic 1 Config.nativeIntBytes := rfl

theorem extract_codeOfFields {d t n z : Nat} (hfit : d < 4 ∧ t < 256 ∧ n < 256 ∧ z < 16384) (f : Field) :
    extract f (codeOfFields d t n z) = BitVec.ofNat f.width (fieldValues d t n z f) :=
  extract_codeOfValues (v := fieldValues d t n z) ((forall_lt_iff_fit _).mpr hfit) f

/-- Settles O40: each literal is the code of the values its evaluation packs, and they fit, so that the evaluation gives it
and its fields are those values. -/
theorem registryLiterals : Obligations.RegistryLiterals := by
  intro s
  have hread := extract_codeOfFields (d := 2) (t := cpipeMagic) (n := 0) (z := Config.nativeIntBytes) (by decide)
  have hwrite := extract_codeOfFields (d := 2) (t := cpipeMagic) (n := 1) (z := Config.nativeIntBytes) (by decide)
  rw [← getAvailableRead_eq_codeOfFields] at hread
  rw [← getAvailableWrite_eq_codeOfFields] at hwrite
  refine ⟨?readStep, ?writeStep, rfl, rfl, hread .dir, hread .type, hread .nr, hread .size,
    hwrite .dir, hwrite .type, hwrite .nr, hwrite .size⟩
  case readStep =>
    exact step_drive_encR (t := cpipeMagic) (n := 0) (z := Config.nativeIntBytes) (by decide) (by decide) (by decide) s
  case writeStep =>
    exact step_drive_encR (t := cpipeMagic) (n := 1) (z := Config.nativeIntBytes) (by decide) (by decide) (by decide) s

end Sys2Proof.Machine

/-! # Proofs: which evaluations report an error

60_exceptions.md R200, R203, R206 and R207. -/

namespace Sys2Proof.Machine

/-! ## What an error port says of the outcome -/

theorem driveOutcome_errOp_eq_one_iff (c : Code) (o : EvalOutcome) :
    (driveOutcome c o).errOp = 1#1 ↔ o = .illegalOp := by
  cases o with
  | ok | fieldOverflow | illegalOp => simp [driveOutcome, reportError]

theorem eq_fieldOverflow_of_driveOutcome_errOvf_ne_zero {c : Code} {o : EvalOutcome}
    (h : (driveOutcome c o).errOvf ≠ 0#4) : o = .fieldOverflow (driveOutcome c o).errOvf := by
  cases o with
  | fieldOverflow => rfl
  | ok | illegalOp => exact absurd rfl h

/-! ## The causes of the error outcomes -/

theorem exists_decode_eq_ok_or_eq_error (op : OpSelect) :
    (∃ i, decode op = .ok i) ∨ decode op = .error (.reservedSelect op) := by
  unfold decode
  split
  case h_14 => exact .inr rfl
  all_goals exact .inl ⟨_, rfl⟩

/-- 30_encoding.md R75, over the 16 selects. -/
theorem decode_eq_error_iff_reserved :
    ∀ op : OpSelect, decode op = .error (.reservedSelect op) ↔ op = 0x2#4 ∨ op = 0x3#4 ∨ op = 0xC#4 := by decide

/-- 60_exceptions.md R200, column "Raised by": a selected operation answers `ok`, or is a checked encode that overflows. -/
theorem outcomeOf_encode_eq_ok_or_fieldOverflow (i : Instr) (s : State) :
    (∃ r, outcomeOf { s.inp with op := encode i } = .ok r) ∨
      isChecked i = true ∧ ∃ m, outcomeOf { s.inp with op := encode i } = .fieldOverflow m := by
  cases hvalues : packedValues s i with
  | some values =>
    rw [outcomeOf_eq_encodeOutcome hvalues]
    cases isChecked i with
    | false => exact .inl ⟨_, rfl⟩
    | true =>
      rw [encodeOutcome]
      split
      next => exact .inl ⟨_, rfl⟩
      next => exact .inr ⟨rfl, _, rfl⟩
  | none =>
    cases i with
    | decNr | decType | decSize | decDir => exact .inl ⟨_, rfl⟩
    | enc | encN | encW | encR | encRW | encu | encuW | encuR | encuRW => cases hvalues

theorem outcomeOf_of_decode_eq_ok {i : Instr} {s : State} (h : decode s.inp.op = .ok i) :
    (∃ r, outcomeOf s.inp = .ok r) ∨ isChecked i = true ∧ ∃ m, outcomeOf s.inp = .fieldOverflow m := by
  have hcases := outcomeOf_encode_eq_ok_or_fieldOverflow i s
  rwa [← eq_encode_of_decode_eq_ok h] at hcases

theorem outcomeOf_eq_illegalOp_iff_reserved (s : State) :
    outcomeOf s.inp = .illegalOp ↔ s.inp.op = 0x2#4 ∨ s.inp.op = 0x3#4 ∨ s.inp.op = 0xC#4 := by
  rw [← decode_eq_error_iff_reserved]
  refine ⟨fun hillegal => ?_, outcomeOf_eq_illegalOp_of_decode_eq_error⟩
  obtain ⟨i, hop⟩ | herror := exists_decode_eq_ok_or_eq_error s.inp.op
  · obtain ⟨r, hok⟩ | ⟨-, m, hovf⟩ := outcomeOf_of_decode_eq_ok hop
    · cases hillegal.symm.trans hok
    · cases hillegal.symm.trans hovf
  · exact herror

theorem exists_checked_of_outcomeOf_eq_fieldOverflow {s : State} {m : OverflowMask}
    (h : outcomeOf s.inp = .fieldOverflow m) : ∃ i, decode s.inp.op = .ok i ∧ isChecked i = true := by
  obtain ⟨i, hop⟩ | herror := exists_decode_eq_ok_or_eq_error s.inp.op
  · obtain ⟨r, hok⟩ | ⟨hchecked, -⟩ := outcomeOf_of_decode_eq_ok hop
    · cases h.symm.trans hok
    · exact ⟨i, hop, hchecked⟩
  · cases h.symm.trans (outcomeOf_eq_illegalOp_of_decode_eq_error herror)

/-- Settles O32: each error port names one outcome, and each error outcome has one kind of select as its cause. -/
theorem onlyTheseReportErrors : Obligations.OnlyTheseReportErrors := by
  intro s t hstep
  rw [step_eq_conclude_outcomeOf] at hstep
  cases hstep
  refine ⟨?errOp, fun hovf => ?errOvf⟩
  case errOp => exact (driveOutcome_errOp_eq_one_iff ..).trans (outcomeOf_eq_illegalOp_iff_reserved s)
  case errOvf => exact exists_checked_of_outcomeOf_eq_fieldOverflow (eq_fieldOverflow_of_driveOutcome_errOvf_ne_zero hovf)

end Sys2Proof.Machine

/-! # Proofs: an evaluation on the ports and off them again

30_encoding.md R70, R73 and R77. Between an evaluation and its port values stand the integers of `HostValues`: an evaluation
is its operation with the integers it reads, and integers in the ports' ranges are the port values. -/

namespace Sys2Proof.Machine

/-- Settles O2. -/
theorem selectDecodesExactlyItsOperation : Obligations.SelectDecodesExactlyItsOperation := by
  intro i op
  constructor
  · exact eq_encode_of_decode_eq_ok
  · rintro rfl
    exact decode_encode i

/-! ## Integers on one port -/

theorem fitsPort_iff (w : Nat) (i : Int) : fitsPort w i = true ↔ -(2 ^ (w - 1)) ≤ i ∧ i < 2 ^ (w - 1) :=
  decide_eq_true_iff

theorem fitsCodePort_iff (i : Int) : fitsCodePort i = true ↔ 0 ≤ i ∧ i < 2 ^ 32 := by
  rw [fitsCodePort, Bool.and_eq_true, decide_eq_true_iff, decide_eq_true_iff]
  omega

/-- The value 30_encoding.md R77 writes to a port that is not read. -/
theorem fitsPort_zero (w : Nat) : fitsPort w 0 = true := by
  have hpos : (0 : Int) < 2 ^ (w - 1) := by positivity
  rw [fitsPort_iff]
  omega

theorem fitsPort_toInt {w : Nat} (v : BitVec w) : fitsPort w v.toInt = true :=
  (fitsPort_iff w _).mpr ⟨v.le_toInt, v.toInt_lt⟩

theorem fitsCodePort_toNat (c : Code) : fitsCodePort c.toNat = true := by
  have hc := c.isLt
  rw [fitsCodePort_iff]
  omega

theorem operandOfInt_toInt_of_fitsPort (pw : Config.PortWidth) {i : Int} (h : fitsPort pw.bits i = true) :
    (operandOfInt pw.bits i).toInt = i := by
  obtain ⟨hlow, hhigh⟩ := (fitsPort_iff _ _).mp h
  exact BitVec.toInt_ofInt_eq_self (by have := pw.atLeast15; omega) hlow hhigh

theorem codeOfInt_toNat_of_fitsCodePort {i : Int} (h : fitsCodePort i = true) : ((codeOfInt i).toNat : Int) = i := by
  obtain ⟨hlow, hhigh⟩ := (fitsCodePort_iff i).mp h
  rw [codeOfInt_toNat, Int.emod_eq_of_lt hlow hhigh]

theorem codeOfInt_natCast_toNat (c : Code) : codeOfInt c.toNat = c := by
  rw [codeOfInt, BitVec.ofInt_natCast, BitVec.ofNat_toNat, BitVec.setWidth_eq]

/-! ## Integers on all the ports -/

/-- The integers on the ports, by the readings of `decodePorts`: an operand port signed, `code_in` unsigned. -/
def hostValuesOf {w : Nat} (p : InputPorts w) : HostValues :=
  { op := p.op, inDir := p.inDir.toInt, inType := p.inType.toInt, inNr := p.inNr.toInt, inSize := p.inSize.toInt,
    codeIn := p.codeIn.toNat }

/-- Every integer is in the range of its port: 70_reset_and_hazards.md R246 item 4, and 10_state.md R26 for `code_in`. -/
structure FitPorts (w : Nat) (h : HostValues) : Prop where
  inDir : fitsPort w h.inDir = true
  inType : fitsPort w h.inType = true
  inNr : fitsPort w h.inNr = true
  inSize : fitsPort w h.inSize = true
  codeIn : fitsCodePort h.codeIn = true

theorem fitPorts_hostValuesOf {w : Nat} (p : InputPorts w) : FitPorts w (hostValuesOf p) :=
  ⟨fitsPort_toInt _, fitsPort_toInt _, fitsPort_toInt _, fitsPort_toInt _, fitsCodePort_toNat _⟩

theorem onPorts_hostValuesOf {w : Nat} (p : InputPorts w) : (hostValuesOf p).onPorts w = p := by
  simp only [HostValues.onPorts, hostValuesOf, operandOfInt, BitVec.ofInt_toInt, codeOfInt_natCast_toNat]

theorem hostValuesOf_onPorts (pw : Config.PortWidth) {h : HostValues} (hfit : FitPorts pw.bits h) :
    hostValuesOf (h.onPorts pw.bits) = h := by
  simp only [hostValuesOf, HostValues.onPorts, operandOfInt_toInt_of_fitsPort pw hfit.inDir,
    operandOfInt_toInt_of_fitsPort pw hfit.inType, operandOfInt_toInt_of_fitsPort pw hfit.inNr,
    operandOfInt_toInt_of_fitsPort pw hfit.inSize, codeOfInt_toNat_of_fitsCodePort hfit.codeIn]

/-! ## An evaluation as an operation and integers -/

/-- The operation with the integers of the ports it reads, in the operand order of 30_encoding.md R77. -/
def evaluationWith (h : HostValues) : Instr → Evaluation Int
  | .enc => .enc h.inDir h.inType h.inNr h.inSize
  | .encu => .encu h.inDir h.inType h.inNr h.inSize
  | .encN => .encN h.inType h.inNr
  | .encW => .encW h.inType h.inNr h.inSize
  | .encR => .encR h.inType h.inNr h.inSize
  | .encRW => .encRW h.inType h.inNr h.inSize
  | .decNr => .decNr h.codeIn
  | .decType => .decType h.codeIn
  | .decSize => .decSize h.codeIn
  | .decDir => .decDir h.codeIn
  | .encuW => .encuW h.inType h.inNr h.inSize
  | .encuR => .encuR h.inType h.inNr h.inSize
  | .encuRW => .encuRW h.inType h.inNr h.inSize

/-- Every evaluation is one such, of the integers that it drives. -/
theorem evaluationWith_hostValues (e : Evaluation Int) : evaluationWith e.hostValues e.instr = e := by
  cases e <;> rfl

theorem hostValues_op (e : Evaluation Int) : e.hostValues.op = encode e.instr := by
  cases e <;> rfl

theorem decodePorts_eq_map {w : Nat} (p : InputPorts w) :
    decodePorts p = (decode p.op).map (evaluationWith (hostValuesOf p)) := by
  unfold decodePorts
  cases decode p.op with
  | error => rfl
  | ok i => cases i <;> rfl

/-- Port values give an evaluation exactly when `op` selects an operation, and then its operands are their integers. -/
theorem decodePorts_eq_ok_iff {w : Nat} {p : InputPorts w} {e : Evaluation Int} :
    decodePorts p = .ok e ↔ ∃ i, p.op = encode i ∧ e = evaluationWith (hostValuesOf p) i := by
  simp only [← selectDecodesExactlyItsOperation _ p.op, decodePorts_eq_map]
  cases decode p.op with
  | error => simp [Except.map]
  | ok i => simp [Except.map, eq_comm]

/-- 30_encoding.md R77: the integers an evaluation drives are those it reads, and 0 elsewhere. -/
theorem hostValues_evaluationWith (h : HostValues) (i : Instr) :
    (evaluationWith h i).hostValues =
      { op := encode i
        inDir := if readsDir i then h.inDir else 0
        inType := if readsTypeAndNr i then h.inType else 0
        inNr := if readsTypeAndNr i then h.inNr else 0
        inSize := if readsSize i then h.inSize else 0
        codeIn := if readsCode i then h.codeIn else 0 } := by
  cases i <;> rfl

/-- Only the integers that the operation reads need to be in their ports' ranges. -/
theorem wellFormed_evaluationWith_iff (w : Nat) (h : HostValues) (i : Instr) :
    (evaluationWith h i).wellFormed w = true ↔
      (readsDir i = true → fitsPort w h.inDir = true) ∧
      (readsTypeAndNr i = true → fitsPort w h.inType = true ∧ fitsPort w h.inNr = true) ∧
      (readsSize i = true → fitsPort w h.inSize = true) ∧ (readsCode i = true → fitsCodePort h.codeIn = true) := by
  cases i with
  | enc | encu | encN | encW | encR | encRW | decNr | decType | decSize | decDir | encuW | encuR | encuRW =>
    simp [evaluationWith, Evaluation.wellFormed, Evaluation.dirOperand, Evaluation.plainOperands,
      Evaluation.codeOperand, readsDir, readsTypeAndNr, readsSize, readsCode, and_assoc]

theorem fitPorts_hostValues {w : Nat} {e : Evaluation Int} (hwf : e.wellFormed w = true) : FitPorts w e.hostValues := by
  obtain ⟨h, i, rfl⟩ : ∃ h i, e = evaluationWith h i := ⟨_, _, (evaluationWith_hostValues e).symm⟩
  obtain ⟨hdir, htypeNr, hsize, hcode⟩ := (wellFormed_evaluationWith_iff w h i).mp hwf
  rw [hostValues_evaluationWith]
  have hwritten {fits : Int → Bool} (hzero : fits 0 = true) {read : Bool} {v : Int}
      (hv : read = true → fits v = true) : fits (if read then v else 0) = true :=
    iteInduction (motive := fun v => fits v = true) hv fun _ => hzero
  exact ⟨hwritten (fitsPort_zero w) hdir, hwritten (fitsPort_zero w) fun hread => (htypeNr hread).1,
    hwritten (fitsPort_zero w) fun hread => (htypeNr hread).2, hwritten (fitsPort_zero w) hsize, hwritten rfl hcode⟩

/-- Settles O4: the integers of a well-formed evaluation are in their ports' ranges, so they are the integers on the ports
again, and with its operation they are the evaluation. -/
theorem evaluationDecodesFromItsPorts : Obligations.EvaluationDecodesFromItsPorts := by
  intro pw e hwf
  have hintegers : hostValuesOf (encodeEvaluation pw.bits e) = e.hostValues :=
    hostValuesOf_onPorts pw (fitPorts_hostValues hwf)
  refine decodePorts_eq_ok_iff.mpr ⟨e.instr, hostValues_op e, ?_⟩
  rw [hintegers, evaluationWith_hostValues]

theorem outcomeOf_onPorts_evaluationWith {w : Nat} (h : HostValues) (i : Instr) :
    outcomeOf ((evaluationWith h i).hostValues.onPorts w) = outcomeOf { h.onPorts w with op := encode i } := by
  have hports : (evaluationWith h i).hostValues.onPorts w =
      { (evaluationWith h i).hostValues.onPorts w with op := encode i } := by
    rw [hostValues_evaluationWith]
    rfl
  rw [hports]
  refine outcomeOf_congr_of_read i ?dir ?typeNr ?size ?code
  all_goals
    intro hread
    simp only [hostValues_evaluationWith, HostValues.onPorts, hread, if_true, and_self]

/-- Settles O5: an operation answers the same whatever stands on the ports it does not read. -/
theorem decodedPortsEvaluateAlike : Obligations.DecodedPortsEvaluateAlike := by
  intro pw p e hdecode
  obtain ⟨i, hop, rfl⟩ := decodePorts_eq_ok_iff.mp hdecode
  obtain ⟨hdir, htype, hnr, hsize, hcode⟩ := fitPorts_hostValuesOf p
  refine ⟨(wellFormed_evaluationWith_iff ..).mpr ⟨fun _ => hdir, fun _ => ⟨htype, hnr⟩, fun _ => hsize, fun _ => hcode⟩, ?_⟩
  rw [encodeEvaluation, outcomeOf_onPorts_evaluationWith, onPorts_hostValuesOf, ← hop]

end Sys2Proof.Machine

/-! # Proofs: the four fields of a code and the whole code

30_encoding.md R67 and R79, 41_decoder.md R156. -/

namespace Sys2Proof.Machine

/-! ## Packing and extraction -/

theorem extract_pack (d : BitVec 2) (t n : BitVec 8) (z : BitVec 14) :
    extract .dir (pack d t n z) = d ∧ extract .type (pack d t n z) = t ∧ extract .nr (pack d t n z) = n ∧
    extract .size (pack d t n z) = z := by
  have hfields := extract_codeOfFields (d := d.toNat) (t := t.toNat) (n := n.toNat) (z := z.toNat)
    ⟨d.isLt, t.isLt, n.isLt, z.isLt⟩
  have hvalue {w : Nat} (v : BitVec w) : BitVec.ofNat w v.toNat = v := by
    rw [BitVec.ofNat_toNat, BitVec.setWidth_eq]
  rw [pack_eq_codeOfFields]
  exact ⟨(hfields .dir).trans (hvalue d), (hfields .type).trans (hvalue t), (hfields .nr).trans (hvalue n),
    (hfields .size).trans (hvalue z)⟩

/-- The fields' quotients and remainders are the digits of the code, so the sum of the shifted digits is the code. -/
theorem pack_extract (c : Code) : pack (extract .dir c) (extract .type c) (extract .nr c) (extract .size c) = c := by
  apply BitVec.eq_of_toNat_eq
  rw [pack_toNat, extract_dir_toNat, extract_nr_toNat, extract_toNat .type, extract_toNat .size]
  dsimp only [Field.shift, Field.width]
  omega

/-- Settles O9. -/
theorem fieldsTileTheCode : Obligations.FieldsTileTheCode :=
  ⟨pack_extract, extract_pack⟩

/-! ## ENC and ENCU of the four fields -/

/-- What a generic encode packs of a host's integers that fit their fields. -/
theorem packedValues_drive_generic {d t n z : Nat} (hfit : d < 4 ∧ t < 256 ∧ n < 256 ∧ z < 16384) (s : State) :
    packedValues (s.drive (Evaluation.enc (d : Int) t n z).hostValues) .enc = some (d, t, n, z) ∧
    packedValues (s.drive (Evaluation.encu (d : Int) t n z).hostValues) .encu = some (d, t, n, z) := by
  obtain ⟨hd, ht, hn, hz⟩ := hfit
  have hports : some ((operandOfInt s.width.bits d).toNat, (operandOfInt s.width.bits t).toNat,
      (operandOfInt s.width.bits n).toNat, (operandOfInt s.width.bits z).toNat) = some (d, t, n, z) := by
    rw [operandOfInt_natCast_toNat s.width .dir hd, operandOfInt_natCast_toNat s.width .type ht,
      operandOfInt_natCast_toNat s.width .nr hn, operandOfInt_natCast_toNat s.width .size hz]
  exact ⟨hports, hports⟩

/-- 40_encoder.md R102 and R107, from a host's integers to the outcome it reads. -/
theorem step_drive_generic {d t n z : Nat} (hfit : d < 4 ∧ t < 256 ∧ n < 256 ∧ z < 16384) (s : State) :
    (∃ u, step (s.drive (Evaluation.enc (d : Int) t n z).hostValues) = .next u ∧
      u.out.outcome = .ok (codeOfFields d t n z)) ∧
    (∃ u, step (s.drive (Evaluation.encu (d : Int) t n z).hostValues) = .next u ∧
      u.out.outcome = .ok (codeOfFields d t n z)) := by
  obtain ⟨henc, hencu⟩ := packedValues_drive_generic hfit s
  have hexec := exec_of_checked_of_fit rfl henc hfit
  have hexecu := exec_of_unchecked rfl hencu
  obtain ⟨hd, ht, hn, hz⟩ := hfit
  rw [Nat.mod_eq_of_lt hd, Nat.mod_eq_of_lt ht, Nat.mod_eq_of_lt hn, Nat.mod_eq_of_lt hz] at hexecu
  exact ⟨⟨_, (step_drive_hostValues _ s).trans hexec, rfl⟩, ⟨_, (step_drive_hostValues _ s).trans hexecu, rfl⟩⟩

/-- Settles O25: the fields fit, so the two encodes give the code that packs them, which is `c`. -/
theorem reencodingDecodedFields : Obligations.ReencodingDecodedFields := by
  intro s c
  have hstep := step_drive_generic (d := (extract .dir c).toNat) (t := (extract .type c).toNat)
    (n := (extract .nr c).toNat) (z := (extract .size c).toNat)
    ⟨BitVec.isLt _, BitVec.isLt _, BitVec.isLt _, BitVec.isLt _⟩ s
  rwa [← pack_eq_codeOfFields, pack_extract] at hstep

/-! ## The pseudo-instruction DEC -/

/-- 30_encoding.md R79: a decode of each field in turn, the parallel outputs the same each time (10_state.md R25). -/
theorem runLine_decAll (a : AsmOperand) (s : State) :
    runLine (.decAll a) s = [Field.nr, Field.type, Field.size, Field.dir].map fun f =>
      driveOutcome (codeOfInt (operandValue a)) (decodeField f (codeOfInt (operandValue a))) := by
  rw [runLine, outputsDependOnCurrentInputsAlone]
  rfl

/-- Settles O26. -/
theorem decLineGivesTheTuple : Obligations.DecLineGivesTheTuple := by
  intro s a
  refine ⟨?outcomes, fun o ho => ?parallel⟩
  case outcomes =>
    rw [runLine_decAll]
    rfl
  case parallel =>
    rw [runLine_decAll] at ho
    obtain ⟨f, -, rfl⟩ := List.mem_map.mp ho
    exact ⟨driveOutcome_decNr .., driveOutcome_decType .., driveOutcome_decSize .., driveOutcome_decDir ..⟩

end Sys2Proof.Machine

/-! # Proofs: what every step leaves

10_state.md R27, 20_memory.md R44, 60_exceptions.md R203 to R205, 70_reset_and_hazards.md R241. -/

namespace Sys2Proof.Machine

/-! ## The selected operation -/

/-- Settles O27. -/
theorem stepRunsTheSelectedOperation : Obligations.StepRunsTheSelectedOperation := by
  intro s i hop
  rw [step_eq_conclude_outcomeOf, exec_eq_conclude_outcomeOf, ← eq_encode_of_decode_eq_ok hop]

theorem selectOfWord_toNat (op : OpSelect) : selectOfWord 8 op.toNat = op := by
  have hop : op.toNat < 2 ^ 8 := op.isLt.trans (by decide)
  rw [selectOfWord, Nat.mod_eq_of_lt hop, BitVec.ofNat_toNat, BitVec.setWidth_eq]

/-- Settles O28: the word puts the operation's own select on `op`, and `exec` looks at the other ports. -/
theorem fetchWordSelectsTheOperation : Obligations.FetchWordSelectsTheOperation := by
  intro s i
  rw [State.withFetchWord, selectOfWord_toNat]
  exact stepRunsTheSelectedOperation _ i (decode_encode i)

/-- Settles O29. -/
theorem reservedSelectReportsIllegalOp : Obligations.ReservedSelectReportsIllegalOp := by
  intro s hreserved
  rw [step_eq_conclude_outcomeOf, (outcomeOf_eq_illegalOp_iff_reserved s).mpr hreserved, conclude_illegalOp]

/-! ## Settled outputs -/

theorem withOutputs_eq_self_iff (s : State) (o : OutputPorts) : s.withOutputs o = s ↔ s.out = o := by
  constructor
  · intro h
    rw [← h, State.withOutputs_out]
  · rintro rfl
    rfl

theorem step_eq_self_iff_settled (s : State) : step s = .next s ↔ s.settled := by
  rw [step_eq_withOutputs_evaluate, Host.Outcome.next.injEq, withOutputs_eq_self_iff, State.settled]

/-- Settles O35: a step drives the outputs of the inputs it keeps. -/
theorem evaluationIsIdempotent : Obligations.EvaluationIsIdempotent := by
  intro s
  have hsettled : (s.withOutputs (evaluate s.inp)).settled := rfl
  exact ⟨⟨_, step_eq_withOutputs_evaluate s, hsettled, (step_eq_self_iff_settled _).mpr hsettled⟩,
    step_eq_self_iff_settled s⟩

/-! ## The report -/

theorem driveOutcome_legalReport (c : Code) (o : EvalOutcome) : (driveOutcome c o).legalReport := by
  cases o with
  | ok r => exact ⟨nofun, fun hovf => absurd rfl hovf⟩
  | fieldOverflow m => exact ⟨nofun, fun _ => ⟨rfl, rfl⟩⟩
  | illegalOp => exact ⟨fun _ => ⟨rfl, rfl⟩, fun hovf => absurd rfl hovf⟩

theorem State.conclude_consistent (s : State) (o : EvalOutcome) : (s.conclude o).consistent :=
  ⟨driveOutcome_legalReport _ o, s.conclude_decoderFollows o⟩

/-- Settles O33: a step drives an outcome, and to drive any outcome makes the ports consistent. -/
theorem stepKeepsPortsConsistent : Obligations.StepKeepsPortsConsistent := by
  intro s t hstep
  rw [step_eq_conclude_outcomeOf] at hstep
  cases hstep
  exact ⟨s.conclude_consistent _, rfl⟩

/-- Settles O34: the state after reset is settled, so it is the state that a step from it leaves. -/
theorem resetConsistent : Obligations.ResetConsistent := by
  have hsettled : State.reset.settled := rfl
  have hstep : step State.reset = .next State.reset := (step_eq_self_iff_settled _).mpr hsettled
  exact ⟨(stepKeepsPortsConsistent _ _ hstep).1, hsettled, hstep⟩

/-- Settles O38: each outcome has its own error ports, since the mask of an overflow is not 0. -/
theorem outcomeIsReadOffThePorts : Obligations.OutcomeIsReadOffThePorts := by
  intro c o ho
  cases o with
  | ok r => rfl
  | illegalOp => rfl
  | fieldOverflow m =>
    have hm : m ≠ 0#4 := fun hzero => ho (congrArg _ hzero)
    exact (if_neg (show ¬(0#1 = 1#1) by decide)).trans (if_pos hm)

/-- A report of an error has one of its two causes. -/
theorem State.not_reportsNoError_iff (s : State) : ¬s.reportsNoError ↔ s.out.errOp = 1#1 ∨ s.out.errOvf ≠ 0#4 := by
  have hbit : ∀ e : BitVec 1, e ≠ 0#1 ↔ e = 1#1 := by decide
  rw [State.reportsNoError, not_and_or, ← ne_eq, hbit]

theorem OutputPorts.usableResult_of_noError {o : OutputPorts} (hop : o.errOp = 0#1) (hovf : o.errOvf = 0#4) :
    o.usableResult = some o.result := by
  simp [usableResult, outcome, hop, hovf]

theorem OutputPorts.usableResult_of_error {o : OutputPorts} (herror : o.errOp = 1#1 ∨ o.errOvf ≠ 0#4) :
    o.usableResult = none := by
  by_cases hop : o.errOp = 1#1
  · simp [usableResult, outcome, hop]
  · simp [usableResult, outcome, hop, herror.resolve_left hop]

theorem OutputPorts.legalReport.result_eq_zero {o : OutputPorts} (hlegal : o.legalReport)
    (herror : o.errOp = 1#1 ∨ o.errOvf ≠ 0#4) : o.result = 0#32 :=
  herror.elim (fun hop => (hlegal.1 hop).2) fun hovf => (hlegal.2 hovf).2

/-- Settles O39: the report is legal, and the outcome the host reads is `ok` exactly when neither cause is reported. -/
theorem errorsGiveNoCommandCode : Obligations.ErrorsGiveNoCommandCode := by
  intro s t hstep
  obtain ⟨⟨hlegal, -⟩, -⟩ := stepKeepsPortsConsistent s t hstep
  rw [step_eq_conclude_outcomeOf] at hstep
  refine ⟨fun herror => ?error, fun ⟨hop, hovf⟩ => OutputPorts.usableResult_of_noError hop hovf, ?frame⟩
  case error =>
    rw [State.not_reportsNoError_iff] at herror
    exact ⟨hlegal.result_eq_zero herror, OutputPorts.usableResult_of_error herror⟩
  case frame =>
    cases hstep
    rfl

end Sys2Proof.Machine
